-- ==== Sys2Proof/Word.lean ====
section
/-! DEFINITION. The data width of the core: every register, memory cell, address, operand and
flags value is an unsigned 8-bit value (spec/00_scope.md R8, R11). -/

namespace Sys2Proof

/-- An 8-bit value: registers, memory cells, the program counter, the flags register, operand
bytes and addresses (spec/00_scope.md R8, R11; spec/20_memory.md R40). -/
abbrev Byte := BitVec 8

/-- `mod8(v)` of spec/00_scope.md R11: a mathematical integer narrowed to 8 bits, applied wherever a
result is stored. -/
def mod8 (n : Nat) : Byte := BitVec.ofNat 8 n

end Sys2Proof
end

