-- ==== Sys2Proof/Syntax.lean ====
section
/-! DEFINITION. The twenty instructions (spec/30_encoding.md R66), with their operand bytes as the
cycle latches them (spec/00_scope.md R13), their names, and the ALU's operation tags
(spec/42_alu.md R120). -/

namespace Sys2Proof

/-- The identity of an instruction: the closed set of twenty names the executor dispatches on
(spec/30_encoding.md R65, R66, R69). -/
inductive Mnemonic where
  | hlt | ret
  | push | pop | prn | call | jmp | jeq | jne | not
  | ldi | add | mul | mod | cmp | and | or | xor | shl | shr
  deriving DecidableEq, Repr

/-- The twenty names, in the order of the opcode map (spec/30_encoding.md R66). -/
def Mnemonic.all : List Mnemonic :=
  [.hlt, .ret, .push, .pop, .prn, .call, .jmp, .jeq, .jne, .not]
    ++ [.ldi, .add, .mul, .mod, .cmp, .and, .or, .xor, .shl, .shr]

/-- An instruction. `a` and `b` are the operand bytes A and B the instruction uses, whole and
unchecked: a register operand of 8 or more is caught when the instruction runs
(spec/40_execution_loop.md R83), not by the decoder, whose result depends on the opcode byte alone
(spec/30_encoding.md R69). `imm` is LDI's immediate (spec/30_encoding.md R64). -/
inductive Instr where
  | hlt
  | ret
  | push (a : Byte)
  | pop (a : Byte)
  | prn (a : Byte)
  | call (a : Byte)
  | jmp (a : Byte)
  | jeq (a : Byte)
  | jne (a : Byte)
  | not (a : Byte)
  | ldi (a imm : Byte)
  | add (a b : Byte)
  | mul (a b : Byte)
  | mod (a b : Byte)
  | cmp (a b : Byte)
  | and (a b : Byte)
  | or (a b : Byte)
  | xor (a b : Byte)
  | shl (a b : Byte)
  | shr (a b : Byte)
  deriving DecidableEq, Repr

/-- The name of an instruction. -/
def Instr.mnemonic : Instr → Mnemonic
  | .hlt => .hlt
  | .ret => .ret
  | .push _ => .push
  | .pop _ => .pop
  | .prn _ => .prn
  | .call _ => .call
  | .jmp _ => .jmp
  | .jeq _ => .jeq
  | .jne _ => .jne
  | .not _ => .not
  | .ldi _ _ => .ldi
  | .add _ _ => .add
  | .mul _ _ => .mul
  | .mod _ _ => .mod
  | .cmp _ _ => .cmp
  | .and _ _ => .and
  | .or _ _ => .or
  | .xor _ _ => .xor
  | .shl _ _ => .shl
  | .shr _ _ => .shr

/-- The operation tags of the ALU (spec/00_scope.md, glossary: "ALU tag"; spec/42_alu.md R120). -/
inductive AluTag where
  | add | mul | mod | and | or | xor | not | shl | shr | cmp
  deriving DecidableEq, Repr

end Sys2Proof
end

