-- ==== Sys2Proof/Config.lean ====
section
/-! DEFINITION. What the source leaves to the implementation (spec/00_scope.md R9): the opcode map,
the reset value of the flags register, the launch parameters. -/

namespace Sys2Proof

/-- The parameter `opcodeOf` of spec/00_scope.md R9: the opcode byte of each of the twenty
instructions. The source fixes three of them; the constraints on a map are `OpcodeMap.Ok` in
Decode.lean and the default is `defaultOpcodes` there (PRESUMED bytes, log 1). -/
structure OpcodeMap where
  hlt : Byte
  ret : Byte
  push : Byte
  pop : Byte
  prn : Byte
  call : Byte
  jmp : Byte
  jeq : Byte
  jne : Byte
  not : Byte
  ldi : Byte
  add : Byte
  mul : Byte
  mod : Byte
  cmp : Byte
  and : Byte
  or : Byte
  xor : Byte
  shl : Byte
  shr : Byte
  deriving DecidableEq, Repr

/-- The free draw `flags0` of spec/10_state.md R29: the value of the flags register before the first
CMP is "unspecified (not guaranteed zero)". A constant without a body, so that a claim about reset
holds for every value of it. DESIGN CHOICE of form, safe, log 2. -/
opaque Config.flags0 : Byte

/-- The parameters of one launch (spec/00_scope.md R9; spec/92_eei_decisions.md D24 for the line
terminator, which the source does not fix). The defaults of R9 are `defaultLaunch` in
Machine/Boundary.lean. -/
structure LaunchConfig where
  opcodes : OpcodeMap
  flags0 : Byte
  runOnLoadError : Bool
  lineTerminator : List Char
  deriving DecidableEq, Repr

end Sys2Proof
end

