-- ==== Sys2Proof/Decode.lean ====
section
/-! DEFINITION. Instruction lengths, the opcode map and its constraints, the decoder (total on any
bytes, rejecting by name) and the encoder (spec/30_encoding.md). -/

namespace Sys2Proof

/-- `len(ir)` of spec/30_encoding.md R61: 3 when bit 7 is set, else 2 when bit 6 is set, else 1. -/
def opLen (ir : Byte) : Nat :=
  if ir.getLsbD 7 then 3 else if ir.getLsbD 6 then 2 else 1

/-- The number of operand bytes after the opcode (spec/30_encoding.md R60, R61). -/
def operandCount (ir : Byte) : Nat := opLen ir - 1

/-- The opcode byte a map gives a name. -/
def OpcodeMap.byteOf (m : OpcodeMap) : Mnemonic → Byte
  | .hlt => m.hlt
  | .ret => m.ret
  | .push => m.push
  | .pop => m.pop
  | .prn => m.prn
  | .call => m.call
  | .jmp => m.jmp
  | .jeq => m.jeq
  | .jne => m.jne
  | .not => m.not
  | .ldi => m.ldi
  | .add => m.add
  | .mul => m.mul
  | .mod => m.mod
  | .cmp => m.cmp
  | .and => m.and
  | .or => m.or
  | .xor => m.xor
  | .shl => m.shl
  | .shr => m.shr

/-- The default opcode map (spec/30_encoding.md R66). LDI, PRN and HLT are the source's; the other
seventeen bytes are PRESUMED by the spec (spec/92_eei_decisions.md D1), log 1. -/
def defaultOpcodes : OpcodeMap where
  hlt := 0x01
  ret := 0x11
  push := 0x45
  pop := 0x46
  prn := 0x47
  call := 0x50
  jmp := 0x54
  jeq := 0x55
  jne := 0x56
  not := 0x69
  ldi := 0x82
  add := 0xA0
  mul := 0xA2
  mod := 0xA4
  cmp := 0xA7
  and := 0xA8
  or := 0xAA
  xor := 0xAB
  shl := 0xAC
  shr := 0xAD

/-- `opcodeOf⁻¹` of spec/40_execution_loop.md R89: the instruction whose byte is exactly `ir`, if
there is one (spec/30_encoding.md R65). -/
def OpcodeMap.mnemonicOf (m : OpcodeMap) (ir : Byte) : Option Mnemonic :=
  Mnemonic.all.find? fun op => m.byteOf op == ir

/-- How many operands an instruction uses (spec/30_encoding.md R67 (4)). -/
def Mnemonic.operandsUsed : Mnemonic → Nat
  | .hlt => 0
  | .ret => 0
  | .push => 1
  | .pop => 1
  | .prn => 1
  | .call => 1
  | .jmp => 1
  | .jeq => 1
  | .jne => 1
  | .not => 1
  | .ldi => 2
  | .add => 2
  | .mul => 2
  | .mod => 2
  | .cmp => 2
  | .and => 2
  | .or => 2
  | .xor => 2
  | .shl => 2
  | .shr => 2

/-- The constraints of spec/30_encoding.md R67 on an opcode map: the three bytes of the source, the
twenty values distinct, none of them 0xFF, and every instruction's operands within its length. -/
abbrev OpcodeMap.Ok (m : OpcodeMap) : Prop :=
  (m.ldi = 0x82 ∧ m.prn = 0x47 ∧ m.hlt = 0x01) ∧
    (Mnemonic.all.map m.byteOf).Nodup ∧
    (∀ op ∈ Mnemonic.all, m.byteOf op ≠ 0xFF) ∧
    (∀ op ∈ Mnemonic.all, op.operandsUsed ≤ operandCount (m.byteOf op))

/-- Why bytes are not an instruction. `undefinedOpcode` is the decode error of
spec/60_exceptions.md R161. The other two never arise in a cycle of a core whose map meets
spec/30_encoding.md R67, which always fetches `len(ir)` bytes: `endOfBytes` says that the list given
to the decoder ends before the instruction does, `operandMissing` that the map gives the
instruction fewer operand bytes than it uses (log 18). -/
inductive DecodeError where
  | undefinedOpcode (ir : Byte)
  | endOfBytes
  | operandMissing (op : Mnemonic)
  deriving DecidableEq, Repr

/-- An instruction with one operand, from its operand bytes; later bytes are ignored
(spec/30_encoding.md R67, last sentence). -/
def withOperandA (f : Byte → Instr) : List Byte → Option Instr
  | a :: _ => some (f a)
  | [] => none

/-- An instruction with two operands, from its operand bytes. -/
def withOperandsAB (f : Byte → Byte → Instr) : List Byte → Option Instr
  | a :: b :: _ => some (f a b)
  | [_] => none
  | [] => none

/-- The instruction of a name with its operand bytes (spec/30_encoding.md R66, columns A and B);
`none` when it uses a byte that is not there. -/
def assemble (op : Mnemonic) (operands : List Byte) : Option Instr :=
  match op with
  | .hlt => some .hlt
  | .ret => some .ret
  | .push => withOperandA .push operands
  | .pop => withOperandA .pop operands
  | .prn => withOperandA .prn operands
  | .call => withOperandA .call operands
  | .jmp => withOperandA .jmp operands
  | .jeq => withOperandA .jeq operands
  | .jne => withOperandA .jne operands
  | .not => withOperandA .not operands
  | .ldi => withOperandsAB .ldi operands
  | .add => withOperandsAB .add operands
  | .mul => withOperandsAB .mul operands
  | .mod => withOperandsAB .mod operands
  | .cmp => withOperandsAB .cmp operands
  | .and => withOperandsAB .and operands
  | .or => withOperandsAB .or operands
  | .xor => withOperandsAB .xor operands
  | .shl => withOperandsAB .shl operands
  | .shr => withOperandsAB .shr operands

/-- The decoder: one instruction from the front of a list of bytes, with the bytes after it. The
opcode's identity is its full value (spec/30_encoding.md R65), its length bits 7 and 6 (R61), and an
undefined byte is refused whatever follows it (spec/40_execution_loop.md R82). -/
def decode (m : OpcodeMap) : List Byte → Except DecodeError (Instr × List Byte)
  | [] => .error .endOfBytes
  | ir :: rest =>
    match m.mnemonicOf ir with
    | none => .error (.undefinedOpcode ir)
    | some op =>
      if rest.length < operandCount ir then .error .endOfBytes
      else
        match assemble op (rest.take (operandCount ir)) with
        | none => .error (.operandMissing op)
        | some i => .ok (i, rest.drop (operandCount ir))

/-- The operand bytes of an instruction, A before B (spec/30_encoding.md R66). -/
def Instr.operandBytes : Instr → List Byte
  | .hlt => []
  | .ret => []
  | .push a => [a]
  | .pop a => [a]
  | .prn a => [a]
  | .call a => [a]
  | .jmp a => [a]
  | .jeq a => [a]
  | .jne a => [a]
  | .not a => [a]
  | .ldi a imm => [a, imm]
  | .add a b => [a, b]
  | .mul a b => [a, b]
  | .mod a b => [a, b]
  | .cmp a b => [a, b]
  | .and a b => [a, b]
  | .or a b => [a, b]
  | .xor a b => [a, b]
  | .shl a b => [a, b]
  | .shr a b => [a, b]

/-- The encoder: the opcode byte, then `len - 1` operand bytes (spec/30_encoding.md R60). An operand
byte within the length that the instruction does not use is ignored by the core (R67); the encoder
writes 0 there (DESIGN CHOICE, safe, log 20). -/
def encode (m : OpcodeMap) (i : Instr) : List Byte :=
  let ir := m.byteOf i.mnemonic
  ir :: (i.operandBytes ++ [0, 0]).take (operandCount ir)

/-- The bytes of an instruction numbered as spec/opcode_table.json numbers its bits: bits 7..0 are the
opcode, 15..8 operand A, 23..16 operand B; bits from `nbits` on are 0. -/
def tableBytes (nbits w : Nat) : List Byte :=
  let v := w % 2 ^ nbits
  [mod8 v, mod8 (v / 2 ^ 8), mod8 (v / 2 ^ 16)]

/-- The instruction the decoder reads, under the default opcode map, from an instruction whose bits
are `w`, numbered as spec/opcode_table.json numbers them. -/
def decodeTableWord (nbits w : Nat) : Option Instr :=
  match decode defaultOpcodes (tableBytes nbits w) with
  | .ok (i, _) => some i
  | .error _ => none

end Sys2Proof
end

