-- ==== Sys2Proof/Machine/State.lean ====
section
/-! DEFINITION. The state of the core (spec/10_state.md R20), as plain data, its value after reset
(R38), and the reasons a step can stop (spec/40_execution_loop.md R91, R92). -/

namespace Sys2Proof.Machine

/-- The number of a general register, R0 to R7 (spec/10_state.md R21). -/
abbrev RegIdx := Fin 8

/-- The 256 cells of spec/20_memory.md R40, as (address, byte) pairs with addresses strictly rising and
no byte 0: an address that is not listed reads as 0, the content the spec gives every cell at reset
(R43). The canonical form is `Memory.wf` in Ops.lean. -/
abbrev Memory := List Host.Cell

/-- Why a core is HALTED (spec/10_state.md R33): the HLT instruction, or an unrecognized opcode byte
`ir` fetched at `addr`. -/
inductive HaltReason where
  | hlt
  | badOpcode (ir addr : Byte)
  deriving DecidableEq, Repr

/-- The executor's state machine (spec/10_state.md R33; spec/40_execution_loop.md R80). -/
inductive RunState where
  | running
  | halted (reason : HaltReason)
  deriving DecidableEq, Repr

/-- The records of the diagnostic trace (spec/60_exceptions.md R166). -/
inductive Diag where
  | badOpcode (ir addr : Byte)
  | modByZero (addr : Byte)
  deriving DecidableEq, Repr

/-- The model fault of spec/60_exceptions.md R164: the instruction at `addr` uses the operand byte
`v >= 8` as a register. -/
inductive ModelFault where
  | badRegister (addr v : Byte)
  deriving DecidableEq, Repr

/-- Why `step` answers a fault: the state has no step at all (spec/40_execution_loop.md R92; log 10).
No instruction raises one. -/
inductive Fault where
  /-- Raised by `step` on a HALTED state, which is final (spec/10_state.md R33). Safe: it adds no
  behaviour. -/
  | halted (reason : HaltReason)
  /-- Raised by `step` on a state whose model-fault field is set (spec/10_state.md R36). Safe: a run
  that meets a bad register operand has no further behaviour to prove anything about. -/
  | faulted (cause : ModelFault)
  deriving DecidableEq, Repr

/-- Why the model gives no meaning. -/
inductive Refusal where
  /-- Raised by an arm of `exec` for an instruction without a meaning. No arm does: every instruction
  of the table has its meaning. Safe. -/
  | notModelled (mnemonic : String)
  /-- Raised by the cycle when the opcode map gives the fetched instruction fewer operand bytes than it
  uses, which spec/30_encoding.md R67 (4) forbids of every map; it never arises in a state whose map
  meets R67 (log 18). Safe. -/
  | operandNotFetched
  deriving DecidableEq, Repr

/-- The state of the core (spec/10_state.md R20). -/
structure State where
  /-- Program counter: the address of the instruction being fetched (spec/10_state.md R25). -/
  pc : Byte
  /-- Flags register: bit 0 E, bit 1 G, bit 2 L (spec/10_state.md R26). -/
  fl : Byte
  /-- General registers R0 to R7; R7 is the stack pointer (spec/10_state.md R21, R22). -/
  regs : Vector Byte 8
  /-- The 256 memory cells (spec/20_memory.md R40). -/
  mem : Memory
  /-- RUNNING or HALTED (spec/10_state.md R33). -/
  run : RunState
  /-- Output trace of PRN, oldest first (spec/10_state.md R35). -/
  out : List Byte
  /-- Diagnostic trace, oldest first (spec/10_state.md R35). -/
  diag : List Diag
  /-- Model fault, never cleared (spec/10_state.md R36). -/
  fault : Option ModelFault
  /-- The model's own field: the opcode map, a parameter of the machine (spec/00_scope.md R9) that no
  step changes. It stands here because `step` has no other argument (log 1). -/
  opcodes : OpcodeMap
  deriving DecidableEq, Repr

/-- The state after reset, before the load, for a given opcode map and a given draw of the flags
(spec/10_state.md R38; spec/70_reset_and_hazards.md R180). -/
def State.resetWith (opcodes : OpcodeMap) (flags0 : Byte) : State where
  pc := 0
  fl := flags0
  regs := #v[0, 0, 0, 0, 0, 0, 0, 0xF4]
  mem := []
  run := .running
  out := []
  diag := []
  fault := none
  opcodes := opcodes

/-- The machine right after reset (spec/10_state.md R38), with the default opcode map (log 1) and the
free draw of the flags register (log 2). -/
def State.reset : State := State.resetWith defaultOpcodes Config.flags0

end Sys2Proof.Machine
end

