-- ==== Sys2Proof/Machine/Ops.lean ====
section
/-! DEFINITION. The named operations over memory, registers, the program counter, the stack, the
traces and the run state, and the taking of each condition the core reports
(spec/20_memory.md, spec/40_execution_loop.md, spec/41_stack.md, spec/60_exceptions.md). -/

namespace Sys2Proof.Machine

/-! ## Memory -/

/-- What an address that is not listed reads as: the reset content of every cell
(spec/20_memory.md R43). -/
def Memory.unlisted : Byte := 0

/-- The byte at an address. -/
def Memory.read : Memory → Nat → Byte
  | [], _ => Memory.unlisted
  | (k, v) :: m, a => if k = a then v else Memory.read m a

/-- The memory without any entry for an address. -/
def Memory.erase (m : Memory) (a : Nat) : Memory := m.filter fun c => c.1 != a

/-- A cell put in its place among strictly rising addresses. -/
def Memory.insertCell (a : Nat) (v : Byte) : Memory → Memory
  | [] => [(a, v)]
  | (k, w) :: m => if a < k then (a, v) :: (k, w) :: m else (k, w) :: Memory.insertCell a v m

/-- `MemWrite` of spec/20_memory.md R42, in canonical form: writing what an unlisted address reads as
removes the entry. -/
def Memory.write (m : Memory) (a : Nat) (v : Byte) : Memory :=
  if v = Memory.unlisted then m.erase a else Memory.insertCell a v (m.erase a)

/-- The canonical form: addresses strictly rising, inside the 256-byte space, and no entry equal to
what an unlisted address reads as. -/
abbrev Memory.wf (m : Memory) : Prop :=
  m.Pairwise (fun c d => c.1 < d.1) ∧ ∀ c ∈ m, c.1 < 256 ∧ c.2 ≠ Memory.unlisted

/-- `MemRead(a, 1)` of spec/20_memory.md R41. -/
def State.readByte (s : State) (a : Byte) : Byte := s.mem.read a.toNat

/-- `MemWrite(a, 1, v)` of spec/20_memory.md R42. -/
def State.writeByte (s : State) (a v : Byte) : State := { s with mem := s.mem.write a.toNat v }

/-! ## Registers -/

/-- Register 7, the stack pointer (spec/10_state.md R22). -/
def sp : RegIdx := 7

/-- Read of a general register. -/
def State.getReg (s : State) (r : RegIdx) : Byte := s.regs[r]

/-- Write of a general register; none is hardwired (spec/10_state.md R21). -/
def State.setReg (s : State) (r : RegIdx) (v : Byte) : State := { s with regs := s.regs.set r v }

/-! ## Program counter and fetch -/

/-- `mod8(pc + len)`: the address after an instruction at `pc` (spec/40_execution_loop.md R86), with
the length of the instruction's own byte in the opcode map (spec/30_encoding.md R61). -/
def State.nextPc (s : State) (op : Mnemonic) : Byte := mod8 (s.pc.toNat + opLen (s.opcodes.byteOf op))

/-- Redirect: `pc <- t` (spec/40_execution_loop.md R87). -/
def State.redirect (s : State) (t : Byte) : State := { s with pc := t }

/-- Normal advance (spec/40_execution_loop.md R86). -/
def State.advance (s : State) (op : Mnemonic) : State := s.redirect (s.nextPc op)

/-- The bytes one cycle fetches: the opcode at `pc` and the `len(ir) - 1` operand bytes after it,
addresses modulo 256 (spec/40_execution_loop.md R81; spec/30_encoding.md R62). -/
def State.fetch (s : State) : List Byte :=
  let ir := s.readByte s.pc
  ir :: (List.range (operandCount ir)).map fun k => s.readByte (mod8 (s.pc.toNat + (k + 1)))

/-! ## Stack -/

/-- `Push(v)` of spec/41_stack.md R100: decrement R7 modulo 256, then write at the address
equal to its new value. -/
def State.push (s : State) (v : Byte) : State :=
  let newSp := s.getReg sp - 1
  (s.setReg sp newSp).writeByte newSp v

/-- `Pop()` of spec/41_stack.md R101: read at R7, zero that cell, increment R7 modulo 256. Answers the
byte read and the state after. -/
def State.pop (s : State) : Byte × State :=
  let v := s.readByte (s.getReg sp)
  let s1 := s.writeByte (s.getReg sp) 0
  (v, s1.setReg sp (s1.getReg sp + 1))

/-! ## Traces and conditions -/

/-- `out(v)` of spec/43_load_print.md R132. -/
def State.emit (s : State) (v : Byte) : State := { s with out := s.out ++ [v] }

/-- `diag(d)` of spec/60_exceptions.md R166. -/
def State.report (s : State) (d : Diag) : State := { s with diag := s.diag ++ [d] }

/-- `halt(reason)` of spec/40_execution_loop.md R88: nothing else changes, `pc` included (log 4). -/
def State.halt (s : State) (reason : HaltReason) : State := { s with run := .halted reason }

/-- The decode error of spec/60_exceptions.md R161: report the byte and its address, then halt. -/
def State.decodeError (s : State) (ir : Byte) : State :=
  (s.report (.badOpcode ir s.pc)).halt (.badOpcode ir s.pc)

/-- `raise BadRegister(pc, v)` of spec/60_exceptions.md R164: record the fault; nothing else changes
(log 3). -/
def State.raiseBadRegister (s : State) (v : Byte) : State :=
  { s with fault := some (.badRegister s.pc v) }

/-- Why a state has no step, if it has none (spec/40_execution_loop.md R80, R92). -/
def State.stopped (s : State) : Option Fault :=
  match s.fault with
  | some f => some (.faulted f)
  | none =>
    match s.run with
    | .halted r => some (.halted r)
    | .running => none

end Sys2Proof.Machine
end

