-- ==== Sys2Proof/Machine/Operands.lean ====
section
/-! DEFINITION. Register operands and their check (spec/30_encoding.md R63;
spec/40_execution_loop.md R83). The only other operand form is LDI's immediate, a whole byte used
as it is (spec/30_encoding.md R64). -/

namespace Sys2Proof.Machine

/-- `reg(v)` of spec/30_encoding.md R63: the register an operand byte names, none from 8 on. -/
def reg? (v : Byte) : Option RegIdx :=
  if h : v.toNat < 8 then some ⟨v.toNat, h⟩ else none

/-- The operand byte that names a register (spec/30_encoding.md R63). -/
def regByte (r : RegIdx) : Byte := mod8 r.val

/-- Run an instruction on its register operand, or raise `BadRegister` before any effect
(spec/40_execution_loop.md R83). -/
def withReg (v : Byte) (s : State) (k : RegIdx → Host.Outcome State Fault Refusal) :
    Host.Outcome State Fault Refusal :=
  match reg? v with
  | some r => k r
  | none => .next (s.raiseBadRegister v)

/-- The same for two register operands, A checked before B (spec/60_exceptions.md R167). -/
def withRegs (a b : Byte) (s : State) (k : RegIdx → RegIdx → Host.Outcome State Fault Refusal) :
    Host.Outcome State Fault Refusal :=
  withReg a s fun rA => withReg b s fun rB => k rA rB

end Sys2Proof.Machine
end

