-- ==== Sys2Proof/Machine/Flags.lean ====
section
/-! DEFINITION. The flags register: what CMP writes (spec/42_alu.md R119), and the Equal flag the
conditional jumps read (spec/44_control.md R143, R144). -/

namespace Sys2Proof.Machine

/-- The flags byte with E alone set (spec/10_state.md R26, R27). -/
def flagE : Byte := 0x01

/-- The flags byte with G alone set. -/
def flagG : Byte := 0x02

/-- The flags byte with L alone set. -/
def flagL : Byte := 0x04

/-- The flags byte CMP writes, by unsigned order; bits 7:3 are 0 (spec/42_alu.md R119; log 6). -/
def cmpFlags (x y : Byte) : Byte :=
  if x.toNat = y.toNat then flagE else if y.toNat < x.toNat then flagG else flagL

/-- Write of the flags register; only CMP does it (spec/10_state.md R28). -/
def State.setFlags (s : State) (f : Byte) : State := { s with fl := f }

/-- `fl[0] = 1`: the Equal flag, the only bit an instruction reads (spec/10_state.md R26; log 5). -/
def State.equalFlag (s : State) : Bool := s.fl.getLsbD 0

end Sys2Proof.Machine
end

