-- ==== Sys2Proof/Machine/Alu.lean ====
section
/-! DEFINITION. The ALU, a pure function of an operation tag and two register values
(spec/42_alu.md R120, R121), and the meanings of its ten instructions (R110 to R119). -/

namespace Sys2Proof.Machine

/-- What the ALU answers: a new value of register A, or, for CMP, a new flags byte
(spec/42_alu.md R120). -/
inductive AluResult where
  | value (v : Byte)
  | flags (f : Byte)
  deriving DecidableEq, Repr

/-- The ALU (spec/42_alu.md R121): exact on unsigned values, narrowed once at the end. The executor
never gives MOD a zero divisor (R120; log 16); NOT ignores its second operand (R116). -/
def alu (tag : AluTag) (x y : Byte) : AluResult :=
  match tag with
  | .add => .value (mod8 (x.toNat + y.toNat))
  | .mul => .value (mod8 (x.toNat * y.toNat))
  | .mod => .value (mod8 (x.toNat % y.toNat))
  | .and => .value (x &&& y)
  | .or => .value (x ||| y)
  | .xor => .value (x ^^^ y)
  | .not => .value (mod8 (255 - x.toNat))
  | .shl => .value (mod8 (x.toNat * 2 ^ y.toNat))
  | .shr => .value (mod8 (x.toNat / 2 ^ y.toNat))
  | .cmp => .flags (cmpFlags x y)

/-- Apply what the ALU answers: a register mutation or a flags mutation (spec/42_alu.md R120). -/
def State.applyAlu (s : State) (rA : RegIdx) : AluResult → State
  | .value v => s.setReg rA v
  | .flags f => s.setFlags f

/-- A two-register ALU instruction: check A then B, read both registers, apply, advance. -/
def execAlu2 (tag : AluTag) (op : Mnemonic) (a b : Byte) (s : State) :
    Host.Outcome State Fault Refusal :=
  withRegs a b s fun rA rB =>
    .next ((s.applyAlu rA (alu tag (s.getReg rA) (s.getReg rB))).advance op)

/-- ADD (spec/42_alu.md R110). -/
def execAdd (a b : Byte) (s : State) : Host.Outcome State Fault Refusal := execAlu2 .add .add a b s

/-- MUL (spec/42_alu.md R111). -/
def execMul (a b : Byte) (s : State) : Host.Outcome State Fault Refusal := execAlu2 .mul .mul a b s

/-- MOD (spec/42_alu.md R112, R123): a zero divisor is reported with the address of the MOD and the
ALU is not called; `pc` advances in both cases; the divisor is only read (log 16). -/
def execMod (a b : Byte) (s : State) : Host.Outcome State Fault Refusal :=
  withRegs a b s fun rA rB =>
    .next ((if s.getReg rB = 0 then s.report (.modByZero s.pc)
      else s.applyAlu rA (alu .mod (s.getReg rA) (s.getReg rB))).advance .mod)

/-- AND (spec/42_alu.md R113). -/
def execAnd (a b : Byte) (s : State) : Host.Outcome State Fault Refusal := execAlu2 .and .and a b s

/-- OR (spec/42_alu.md R114). -/
def execOr (a b : Byte) (s : State) : Host.Outcome State Fault Refusal := execAlu2 .or .or a b s

/-- XOR (spec/42_alu.md R115). -/
def execXor (a b : Byte) (s : State) : Host.Outcome State Fault Refusal := execAlu2 .xor .xor a b s

/-- NOT (spec/42_alu.md R116): one register operand; a second operand byte, if the map's byte for NOT
has one, is fetched and ignored. -/
def execNot (a : Byte) (s : State) : Host.Outcome State Fault Refusal :=
  withReg a s fun rA => .next ((s.applyAlu rA (alu .not (s.getReg rA) 0)).advance .not)

/-- SHL (spec/42_alu.md R117). -/
def execShl (a b : Byte) (s : State) : Host.Outcome State Fault Refusal := execAlu2 .shl .shl a b s

/-- SHR (spec/42_alu.md R118). -/
def execShr (a b : Byte) (s : State) : Host.Outcome State Fault Refusal := execAlu2 .shr .shr a b s

/-- CMP (spec/42_alu.md R119). -/
def execCmp (a b : Byte) (s : State) : Host.Outcome State Fault Refusal := execAlu2 .cmp .cmp a b s

end Sys2Proof.Machine
end

