-- ==== Sys2Proof/Machine/Control.lean ====
section
/-! DEFINITION. CALL, RET, JMP, JEQ, JNE and HLT (spec/44_control.md R140 to R145). -/

namespace Sys2Proof.Machine

/-- CALL (spec/44_control.md R140): push the address after the CALL, then jump to the register, read
after the push (log 7, log 22). -/
def execCall (a : Byte) (s : State) : Host.Outcome State Fault Refusal :=
  withReg a s fun rA =>
    .next ((s.push (s.nextPc .call)).redirect ((s.push (s.nextPc .call)).getReg rA))

/-- RET (spec/44_control.md R141). -/
def execRet (s : State) : Host.Outcome State Fault Refusal := .next (s.pop.2.redirect s.pop.1)

/-- JMP (spec/44_control.md R142). -/
def execJmp (a : Byte) (s : State) : Host.Outcome State Fault Refusal :=
  withReg a s fun rA => .next (s.redirect (s.getReg rA))

/-- JEQ (spec/44_control.md R143): taken when the Equal flag is set (log 5). -/
def execJeq (a : Byte) (s : State) : Host.Outcome State Fault Refusal :=
  withReg a s fun rA => .next (s.redirect (if s.equalFlag then s.getReg rA else s.nextPc .jeq))

/-- JNE (spec/44_control.md R144): taken when the Equal flag is clear (log 5). -/
def execJne (a : Byte) (s : State) : Host.Outcome State Fault Refusal :=
  withReg a s fun rA => .next (s.redirect (if s.equalFlag then s.nextPc .jne else s.getReg rA))

/-- HLT (spec/44_control.md R145): `pc` keeps the address of the HLT (log 4). -/
def execHlt (s : State) : Host.Outcome State Fault Refusal := .next (s.halt .hlt)

end Sys2Proof.Machine
end

