-- ==== Sys2Proof/Machine/LoadPrint.lean ====
section
/-! DEFINITION. LDI and PRN (spec/43_load_print.md R130, R131). -/

namespace Sys2Proof.Machine

/-- LDI (spec/43_load_print.md R130): the immediate is not checked as a register. -/
def execLdi (a imm : Byte) (s : State) : Host.Outcome State Fault Refusal :=
  withReg a s fun rA => .next ((s.setReg rA imm).advance .ldi)

/-- PRN (spec/43_load_print.md R131). -/
def execPrn (a : Byte) (s : State) : Host.Outcome State Fault Refusal :=
  withReg a s fun rA => .next ((s.emit (s.getReg rA)).advance .prn)

end Sys2Proof.Machine
end

