-- ==== Sys2Proof/Machine/Stack.lean ====
section
/-! DEFINITION. PUSH and POP (spec/41_stack.md R102, R103). -/

namespace Sys2Proof.Machine

/-- PUSH (spec/41_stack.md R102): the value is read before the decrement, for R7 too (log 7). -/
def execPush (a : Byte) (s : State) : Host.Outcome State Fault Refusal :=
  withReg a s fun rA => .next ((s.push (s.getReg rA)).advance .push)

/-- POP (spec/41_stack.md R103): the register is written after the increment, so `POP R7` leaves R7
equal to the popped byte (log 7). -/
def execPop (a : Byte) (s : State) : Host.Outcome State Fault Refusal :=
  withReg a s fun rA => .next ((s.pop.2.setReg rA s.pop.1).advance .pop)

end Sys2Proof.Machine
end

