-- ==== Sys2Proof/Machine/Cycle.lean ====
section
/-! DEFINITION. One cycle of a running core (spec/40_execution_loop.md R89): fetch, decode, execute. -/

namespace Sys2Proof.Machine

/-- One cycle, for a state that is RUNNING and has no model fault (spec/40_execution_loop.md R81 to R84,
R89): all bytes are fetched first, an undefined opcode byte takes the decode-error path and does
nothing else, and a defined instruction runs. -/
def cycle (s : State) : Host.Outcome State Fault Refusal :=
  match decode s.opcodes s.fetch with
  | .ok (i, _) => exec i s
  | .error (.undefinedOpcode ir) => .next (s.decodeError ir)
  | .error .endOfBytes => .refused .operandNotFetched
  | .error (.operandMissing _) => .refused .operandNotFetched

/-- Bytes written one after another from an address, modulo 256. -/
def State.storeBytes (s : State) (a : Byte) : List Byte → State
  | [] => s
  | v :: vs => (s.writeByte a v).storeBytes (a + 1) vs

end Sys2Proof.Machine
end

