-- ==== Sys2Proof/Machine/Step.lean ====
section
/-! DEFINITION. The step: one cycle while the core is RUNNING and has no model fault, and no step
otherwise (spec/40_execution_loop.md R80, R92). -/

namespace Sys2Proof.Machine

/-- One step of the machine (spec/40_execution_loop.md R80, R89, R92). -/
def step (s : State) : Host.Outcome State Fault Refusal :=
  match s.stopped with
  | some f => .fault f
  | none => cycle s

/-- The state with an instruction placed where the next step fetches it: its three bytes, numbered as
spec/opcode_table.json numbers them, at `pc`, `pc + 1` and `pc + 2` modulo 256. It stands for the load
of a program from outside the machine (log 12). -/
def State.withFetchWord (s : State) (nbits w : Nat) : State := s.storeBytes s.pc (tableBytes nbits w)

end Sys2Proof.Machine
end

