-- ==== Sys2Proof/Machine/Boundary.lean ====
section
/-! DEFINITION. The core's boundary with its host (spec/60_exceptions.md R177;
spec/70_reset_and_hazards.md R180, R182): the image format, the load, the launch, what the host reads
during a run, and the text it prints. -/

namespace Sys2Proof.Machine

/-! ## The image (spec/30_encoding.md R72) -/

/-- One line of an image file: no binary digit at its start, a byte, or a digit run of more than
eight digits, which the spec refuses. -/
inductive ImageLine where
  | skipped
  | byte (v : Byte)
  | invalid
  deriving DecidableEq, Repr

/-- The base-2 value of a run of binary digits, the first the most significant. -/
def binaryValue (digits : List Char) : Nat :=
  digits.foldl (fun n c => 2 * n + (if c = '1' then 1 else 0)) 0

/-- How one line is read: its leading run of `0` and `1`, whatever follows it being ignored. -/
def readLine (line : List Char) : ImageLine :=
  let digits := line.takeWhile fun c => c == '0' || c == '1'
  if digits = [] then .skipped
  else if digits.length ≤ 8 then .byte (mod8 (binaryValue digits))
  else .invalid

/-- The bytes of an image file in file order; `none` when a line is invalid. -/
def parseImage : List (List Char) → Option (List Byte)
  | [] => some []
  | l :: ls =>
    match readLine l with
    | .skipped => parseImage ls
    | .byte v => (parseImage ls).map (v :: ·)
    | .invalid => none

/-! ## Load and launch -/

/-- Image bytes written from address `a` on, in file order. -/
def Memory.loadFrom (a : Nat) : List Byte → Memory → Memory
  | [], m => m
  | v :: vs, m => Memory.loadFrom (a + 1) vs (m.write a v)

/-- `load(img)` (spec/20_memory.md R44): the image goes into memory from address 0. -/
def State.load (s : State) (img : List Byte) : State := { s with mem := Memory.loadFrom 0 img s.mem }

/-- The launch with the defaults of spec/00_scope.md R9: the default opcode map (log 1), and no run after a
load error (log 13). R9 gives the flags no default ("none: a free draw"), and the line terminator has
none either, so both stay arguments. -/
def defaultLaunch (flags0 : Byte) (lineTerminator : List Char) : LaunchConfig where
  opcodes := defaultOpcodes
  flags0 := flags0
  runOnLoadError := false
  lineTerminator := lineTerminator

/-- What the host's loader yields: the lines of the image file, or a load error
(spec/60_exceptions.md R163). -/
inductive LoadResult where
  | lines (file : List (List Char))
  | loadError
  deriving DecidableEq, Repr

/-- Why there is no run (spec/70_reset_and_hazards.md R182). -/
inductive NoLaunch where
  | invalidLine
  | imageTooLong
  | loadError
  deriving DecidableEq, Repr

/-- Reset, load and start, in that order (spec/70_reset_and_hazards.md R180, R182): the state the
executor starts from, or the reason there is no run (log 13). -/
def launch (cfg : LaunchConfig) (r : LoadResult) : Except NoLaunch State :=
  let s := State.resetWith cfg.opcodes cfg.flags0
  match r with
  | .loadError => if cfg.runOnLoadError then .ok s else .error .loadError
  | .lines file =>
    match parseImage file with
    | none => .error .invalidLine
    | some img => if img.length ≤ 256 then .ok (s.load img) else .error .imageTooLong

/-! ## What the host reads -/

/-- The signal `reason` of spec/60_exceptions.md R177. -/
def State.reason (s : State) : Option HaltReason :=
  match s.run with
  | .running => none
  | .halted r => some r

/-- The signal `halted` of spec/60_exceptions.md R177. -/
def State.halted (s : State) : Bool := s.reason.isSome

/-- The text the host prints for one value (spec/43_load_print.md R133): base 10, no sign, no leading
zero, no padding, then the line terminator, which the source does not fix (log 14). -/
def hostText (lineTerminator : List Char) (v : Byte) : List Char :=
  Nat.toDigits 10 v.toNat ++ lineTerminator

/-- The text on standard output for an output trace. -/
def hostOutput (lineTerminator : List Char) (out : List Byte) : List Char :=
  out.flatMap (hostText lineTerminator)

end Sys2Proof.Machine
end

