-- ==== Sys2Proof/WellFormed.lean ====
section
/-! DEFINITION. Well-formed instructions: every operand byte used as a register names one of the
eight registers (spec/30_encoding.md R63). An ill-formed one is decoded and then raises
`BadRegister` (spec/60_exceptions.md R164). -/

namespace Sys2Proof

/-- The operand bytes an instruction uses as registers, A before B (column A and B of
spec/30_encoding.md R66 where they say `reg`). LDI's second operand is an immediate. -/
def Instr.registerOperands : Instr → List Byte
  | .hlt => []
  | .ret => []
  | .push a => [a]
  | .pop a => [a]
  | .prn a => [a]
  | .call a => [a]
  | .jmp a => [a]
  | .jeq a => [a]
  | .jne a => [a]
  | .not a => [a]
  | .ldi a _ => [a]
  | .add a b => [a, b]
  | .mul a b => [a, b]
  | .mod a b => [a, b]
  | .cmp a b => [a, b]
  | .and a b => [a, b]
  | .or a b => [a, b]
  | .xor a b => [a, b]
  | .shl a b => [a, b]
  | .shr a b => [a, b]

/-- Every register operand is 0 to 7 (spec/30_encoding.md R63). -/
def Instr.wellFormed (i : Instr) : Bool :=
  i.registerOperands.all fun v => decide (v.toNat < 8)

end Sys2Proof
end

