-- ==== Sys2Proof/Safety.lean ====
section
/-! DEFINITION. What counts as the end of a run (spec/40_execution_loop.md R93), the invariant of the
machine, and the words the statements use for what an instruction leaves unchanged. -/

namespace Sys2Proof.Machine

/-- The end of a run: HALTED with no model fault (spec/40_execution_loop.md R93). -/
def State.ended (s : State) : Prop := (∃ r, s.run = .halted r) ∧ s.fault = none

/-- The core performs cycles in this state (spec/40_execution_loop.md R80). -/
def State.executing (s : State) : Prop := s.run = .running ∧ s.fault = none

/-- Every cell reads as before. -/
def SameMemory (s t : State) : Prop := ∀ x : Byte, t.readByte x = s.readByte x

/-- Every cell but the one at `p` reads as before. -/
def SameMemoryExcept (p : Byte) (s t : State) : Prop := ∀ x : Byte, x ≠ p → t.readByte x = s.readByte x

/-- Every general register not listed is unchanged. -/
def SameRegsExcept (rs : List RegIdx) (s t : State) : Prop :=
  ∀ r : RegIdx, r ∉ rs → t.getReg r = s.getReg r

/-- Both traces are unchanged. -/
def SameTraces (s t : State) : Prop := t.out = s.out ∧ t.diag = s.diag

/-- The run state, the model fault and the opcode map are unchanged. -/
def SameExecutor (s t : State) : Prop := t.run = s.run ∧ t.fault = s.fault ∧ t.opcodes = s.opcodes

/-- `pc` is `mod8(pc + len)` of the instruction's own byte (spec/40_execution_loop.md R86). -/
def Advanced (op : Mnemonic) (s t : State) : Prop :=
  t.pc.toNat = (s.pc.toNat + opLen (s.opcodes.byteOf op)) % 256

/-- A HALTED state keeps the address of the byte that halted it (spec/40_execution_loop.md R82, R88),
and a decode error has reported it (spec/60_exceptions.md R161). -/
def State.haltConsistent (s : State) : Prop :=
  match s.run with
  | .running => True
  | .halted .hlt => s.readByte s.pc = s.opcodes.hlt
  | .halted (.badOpcode ir addr) =>
    addr = s.pc ∧ s.readByte s.pc = ir ∧ s.opcodes.mnemonicOf ir = none ∧
      s.diag.getLast? = some (.badOpcode ir addr)

/-- A faulted state is still RUNNING, keeps the address of the instruction that faulted, and records an
operand byte that names no register (spec/60_exceptions.md R164). -/
def State.faultConsistent (s : State) : Prop :=
  match s.fault with
  | none => True
  | some (.badRegister addr v) => addr = s.pc ∧ 8 ≤ v.toNat ∧ s.run = .running

/-- The invariant every step keeps: memory in canonical form, an opcode map that meets
spec/30_encoding.md R67, and the two consistency conditions above. -/
structure State.Inv (s : State) : Prop where
  mem_wf : s.mem.wf
  opcodes_ok : s.opcodes.Ok
  halt_consistent : s.haltConsistent
  fault_consistent : s.faultConsistent

end Sys2Proof.Machine
end

