-- ==== Sys2Proof/Certificates/Slice0/Obligations.lean ====
section
/-! DEFINITION. The statements about the core, for the provers. Each docstring names the rule of
spec/ it formalises; where a clause rests on a choice of the spec or of the model, it names the
decision of spec/92_eei_decisions.md and the log entry. Register operands are written `regByte r`,
the operand byte of register `r`: they range over all operand bytes 0 to 7
(spec/30_encoding.md R63); bytes from 8 on are `BadRegisterOperandRecordsFault`. -/

open Sys2Proof Sys2Proof.Machine

/-! ## Encoding -/

/-- spec/30_encoding.md R69: every opcode byte decodes to one of the twenty instructions, the one
whose byte it is, or to the decode error, and then it is no instruction's byte. -/
def Obligations.DecodeIsTotalOverOpcodeBytes : Prop :=
  ∀ (m : OpcodeMap), m.Ok → ∀ (ir a b : Byte) (rest : List Byte),
    (∃ i rest', decode m (ir :: a :: b :: rest) = .ok (i, rest') ∧ m.byteOf i.mnemonic = ir) ∨
      (decode m (ir :: a :: b :: rest) = .error (.undefinedOpcode ir) ∧ ∀ op, m.byteOf op ≠ ir)

/-- spec/30_encoding.md R61: the length is 3 when bit 7 is set, else 2 when bit 6 is set, else 1; so
it is 3 for 0xC0 to 0xFF, and no defined byte of the default map is one of those. -/
def Obligations.LengthIsGivenByTopTwoBits : Prop :=
  (∀ ir : Byte, opLen ir = if 128 ≤ ir.toNat then 3 else if 64 ≤ ir.toNat then 2 else 1) ∧
    ∀ op, (defaultOpcodes.byteOf op).toNat < 0xC0

/-- Words written out from spec/30_encoding.md R66 and spec/95_test_vectors.md (section 2), with the
default map. The bytes of all but LDI, PRN and HLT are the spec's decision D1 (log 1); that 0x00 and 0xA1
are no instructions is its decision D2 (spec/30_encoding.md R68; log 9), while 0xFF is the source's own
example; that a register operand of 8 is decoded and not refused is the model's reading (log 3). -/
def Obligations.WordsOfTheSpecDecode : Prop :=
  decode defaultOpcodes [0x01] = .ok (.hlt, []) ∧
  decode defaultOpcodes [0x11, 0x47] = .ok (.ret, [0x47]) ∧
  decode defaultOpcodes [0x45, 0x03] = .ok (.push 3, []) ∧
  decode defaultOpcodes [0x47, 0x00] = .ok (.prn 0, []) ∧
  decode defaultOpcodes [0x47, 0x08] = .ok (.prn 8, []) ∧
  decode defaultOpcodes [0x50, 0x01] = .ok (.call 1, []) ∧
  decode defaultOpcodes [0x69, 0x02] = .ok (.not 2, []) ∧
  decode defaultOpcodes [0x82, 0x00, 0x05] = .ok (.ldi 0 5, []) ∧
  decode defaultOpcodes [0xA0, 0x00, 0x01] = .ok (.add 0 1, []) ∧
  decode defaultOpcodes [0xAD, 0x06, 0x07] = .ok (.shr 6 7, []) ∧
  decode defaultOpcodes [0x00] = .error (.undefinedOpcode 0x00) ∧
  decode defaultOpcodes [0xA1, 0x00, 0x01] = .error (.undefinedOpcode 0xA1) ∧
  decode defaultOpcodes [0xFF] = .error (.undefinedOpcode 0xFF)

/-- spec/30_encoding.md R67, last but two sentences: the default map meets the four constraints. The
map is the spec's decision D1 (log 1). -/
def Obligations.DefaultMapMeetsConstraints : Prop := defaultOpcodes.Ok

/-- spec/30_encoding.md R68: under the default map, 236 of the 256 byte values are undefined. The map
and the meaning of the other bytes are the spec's decisions D1 and D2 (log 1, log 9). -/
def Obligations.UndefinedBytesUnderDefaultMap : Prop :=
  ((List.range 256).filter fun n => (defaultOpcodes.mnemonicOf (mod8 n)).isNone).length = 236

/-- Decode and encode agree: for every opcode map that meets spec/30_encoding.md R67, every
instruction with every value of its operands, and whatever bytes follow. That the encoder writes 0 in
an operand byte the instruction does not use is the model's choice (log 20). -/
def Obligations.DecodeOfEncodeIsIdentity : Prop :=
  ∀ m : OpcodeMap, m.Ok → ∀ (i : Instr) (rest : List Byte),
    decode m (encode m i ++ rest) = .ok (i, rest)

/-- The other direction, under the default map (spec/30_encoding.md R66; decision D1, log 1), where
every instruction uses all its operand bytes: a byte string has one meaning, and that meaning's
encoding is the string. -/
def Obligations.EncodeOfDecodeIsIdentityUnderDefaultMap : Prop :=
  ∀ (bs rest : List Byte) (i : Instr),
    decode defaultOpcodes bs = .ok (i, rest) → encode defaultOpcodes i ++ rest = bs

/-! ## Reset, load, memory -/

/-- spec/10_state.md R38: the value of every state element after reset, for every draw of the flags and
every opcode map; the machine's own reset is the one with the default map. The value 0 of `pc` and the
empty traces and fault are the spec's decisions D29, D12, D13 and D3 (log 11, log 14, log 3); the draw
is D4 (log 2). That the opcode map stands in the state is the model's choice, and that the machine's own
reset has the default map, the spec's decision D1, is PRESUMED (log 1). -/
def Obligations.ResetValues : Prop :=
  (∀ (m : OpcodeMap) (flags0 : Byte),
    (State.resetWith m flags0).pc = 0 ∧
    (State.resetWith m flags0).fl = flags0 ∧
    (∀ r : RegIdx, r ≠ 7 → (State.resetWith m flags0).getReg r = 0) ∧
    (State.resetWith m flags0).getReg 7 = 0xF4 ∧
    (∀ a : Byte, (State.resetWith m flags0).readByte a = 0) ∧
    (State.resetWith m flags0).run = .running ∧
    (State.resetWith m flags0).out = [] ∧
    (State.resetWith m flags0).diag = [] ∧
    (State.resetWith m flags0).fault = none ∧
    (State.resetWith m flags0).opcodes = m) ∧
  State.reset = State.resetWith defaultOpcodes Config.flags0

/-- spec/20_memory.md R43: at reset every cell is 0. -/
def Obligations.ResetMemoryIsZero : Prop := ∀ a : Byte, State.reset.readByte a = 0

/-- spec/20_memory.md R44: the loader writes byte `i` of the image at address `i`, the other cells stay
0, and nothing but memory changes. Images of more than 256 bytes have no load (decision D14, log 13). -/
def Obligations.LoadPlacesImageFromAddressZero : Prop :=
  ∀ (m : OpcodeMap) (flags0 : Byte) (img : List Byte), img.length ≤ 256 →
    (∀ (k : Nat) (h : k < img.length),
      ((State.resetWith m flags0).load img).readByte (mod8 k) = img[k]) ∧
    (∀ a : Byte, img.length ≤ a.toNat → ((State.resetWith m flags0).load img).readByte a = 0) ∧
    ∃ mem, (State.resetWith m flags0).load img = { State.resetWith m flags0 with mem := mem }

/-- spec/70_reset_and_hazards.md R182 and spec/30_encoding.md R72 (decisions D14, D15, log 13): an image
file with a digit run of more than eight digits is refused, an image of more than 256 bytes is refused,
any other is loaded after reset; a load error gives no run, or, when the parameter says so, the reset
state, whose first cycle under the default map is the decode error of byte 0 at address 0. The default
launch of spec/00_scope.md R9 has the default map and gives no run after a load error. That byte 0 is
undefined is decision D2 (log 9), that `pc` stays at it D7 (log 4), the default map D1 (log 1). What the
bytes of an image are is `ImageLinesAreReadInBaseTwo`. -/
def Obligations.LaunchOutcomes : Prop :=
  (∀ file : List (List Char),
    parseImage file = none ↔
      ∃ l ∈ file, 8 < (l.takeWhile fun c => c == '0' || c == '1').length) ∧
  (∀ (cfg : LaunchConfig) (file : List (List Char)),
    (parseImage file = none → launch cfg (.lines file) = .error .invalidLine) ∧
    (∀ img, parseImage file = some img → 256 < img.length →
      launch cfg (.lines file) = .error .imageTooLong) ∧
    (∀ img, parseImage file = some img → img.length ≤ 256 →
      launch cfg (.lines file) = .ok ((State.resetWith cfg.opcodes cfg.flags0).load img))) ∧
  (∀ cfg : LaunchConfig,
    launch cfg .loadError =
      if cfg.runOnLoadError then .ok (State.resetWith cfg.opcodes cfg.flags0)
      else .error .loadError) ∧
  (∀ (flags0 : Byte) (lineTerminator : List Char),
    (defaultLaunch flags0 lineTerminator).opcodes = defaultOpcodes ∧
    (defaultLaunch flags0 lineTerminator).flags0 = flags0 ∧
    launch (defaultLaunch flags0 lineTerminator) .loadError = .error .loadError) ∧
  ∀ flags0 : Byte,
    step (State.resetWith defaultOpcodes flags0) =
      .next { State.resetWith defaultOpcodes flags0 with
        run := .halted (.badOpcode 0 0), diag := [.badOpcode 0 0] }

/-- spec/30_encoding.md R72 (decision D14, log 13): a line that begins with one to eight binary digits
is the byte they write in base 2, the most significant digit first, whatever follows them; a line that
begins with none is skipped; the image is the bytes of its lines in file order. -/
def Obligations.ImageLinesAreReadInBaseTwo : Prop :=
  (∀ (digits : List Bool) (tail : List Char), digits ≠ [] → digits.length ≤ 8 →
    (∀ c, tail.head? = some c → c ≠ '0' ∧ c ≠ '1') →
    ∃ v : Byte, readLine (digits.map (fun d => if d then '1' else '0') ++ tail) = .byte v ∧
      (∀ (k : Nat) (h : k < digits.length),
        v.getLsbD (digits.length - 1 - k) = digits[k]) ∧
      v.toNat < 2 ^ digits.length) ∧
  (∀ line : List Char, (∀ c, line.head? = some c → c ≠ '0' ∧ c ≠ '1') → readLine line = .skipped) ∧
  parseImage [] = some [] ∧
  ∀ (line : List Char) (file : List (List Char)) (img : List Byte), parseImage file = some img →
    (readLine line = .skipped → parseImage (line :: file) = some img) ∧
    ∀ v : Byte, readLine line = .byte v → parseImage (line :: file) = some (v :: img)

/-- The canonical form is canonical: two memories in it that read alike at all 256 addresses of
spec/20_memory.md R40 are equal data. -/
def Obligations.CanonicalMemoriesWithEqualReadsAreEqual : Prop :=
  ∀ m m' : Memory, m.wf → m'.wf → (∀ a : Byte, m.read a.toNat = m'.read a.toNat) → m = m'

/-! ## The step -/

/-- spec/40_execution_loop.md R81, R84, R89: when the bytes at `pc`, `pc + 1` and `pc + 2` (modulo 256)
decode to an instruction, the step of an executing core is `exec` of it; `exec` holds the whole `pc`
update. -/
def Obligations.StepRunsDecodedInstruction : Prop :=
  ∀ (s : State) (i : Instr) (rest : List Byte), s.executing →
    decode s.opcodes [s.readByte s.pc, s.readByte (s.pc + 1), s.readByte (s.pc + 2)] =
      .ok (i, rest) →
    step s = exec i s

/-- The same from the encoder's side, for every opcode map that meets spec/30_encoding.md R67: when the
bytes from `pc` on, addresses modulo 256 (spec/20_memory.md R47), are an instruction's encoding, the
step is `exec` of it. -/
def Obligations.StepRunsEncodedInstruction : Prop :=
  ∀ (s : State) (i : Instr), s.opcodes.Ok → s.executing →
    (∀ (k : Nat) (h : k < (encode s.opcodes i).length),
      s.readByte (mod8 (s.pc.toNat + k)) = (encode s.opcodes i)[k]) →
    step s = exec i s

/-- spec/60_exceptions.md R161: an undefined opcode byte is reported with its address and halts the
core, and nothing else changes. That `pc` keeps its address is decision D7 (log 4). -/
def Obligations.UndefinedOpcodeHaltsAndReports : Prop :=
  ∀ s : State, s.executing → (∀ op, s.opcodes.byteOf op ≠ s.readByte s.pc) →
    step s = .next { s with
      run := .halted (.badOpcode (s.readByte s.pc) s.pc)
      diag := s.diag ++ [.badOpcode (s.readByte s.pc) s.pc] }

/-- spec/40_execution_loop.md R92 (decisions D3, D25; log 3, log 10): a HALTED state and a faulted state
have no step, so the end of a run is final. -/
def Obligations.StoppedCoreHasNoStep : Prop :=
  (∀ (s : State) (r : HaltReason), s.run = .halted r → ∀ t, step s ≠ .next t) ∧
  (∀ (s : State) (f : ModelFault), s.fault = some f → step s = .fault (.faulted f)) ∧
  (∀ (s : State) (r : HaltReason), s.run = .halted r → s.fault = none →
    step s = .fault (.halted r))

/-- spec/40_execution_loop.md R91 (decisions D3, D7, D19; log 3, log 4): a cycle of an executing core
always answers a next state, never a fault or a refusal, with one of three outcomes: still executing;
HALTED by HLT or by the fetched byte at its address; or the model fault of a register operand of 8 or
more at that address. -/
def Obligations.ExecutingCoreAlwaysSteps : Prop :=
  ∀ s : State, s.opcodes.Ok → s.executing → ∃ t, step s = .next t ∧
    (t.executing ∨
      (t.fault = none ∧
        ((t.run = .halted .hlt ∧ s.readByte s.pc = 0x01) ∨
          t.run = .halted (.badOpcode (s.readByte s.pc) s.pc))) ∨
      (t.run = .running ∧ ∃ v : Byte, 8 ≤ v.toNat ∧ t.fault = some (.badRegister s.pc v)))

/-- Every step keeps the machine's invariant, from every state that meets it: memory in canonical form
within its 256 addresses, an opcode map that meets spec/30_encoding.md R67, a HALTED state that keeps
the address and the byte that halted it (and has reported an undefined one), and a faulted state that
keeps the address of the instruction, is still RUNNING, and records a byte of 8 or more. The clauses on
`pc` are decision D7 (log 4), those on the fault D3 (log 3). -/
def Obligations.StepKeepsMachineInvariant : Prop :=
  ∀ s t : State, s.Inv → step s = .next t → t.Inv

/-- The reset state meets the invariant, for every opcode map that meets spec/30_encoding.md R67 and every
draw of the flags; so does the machine's own reset, whose map is the spec's decision D1 (log 1). -/
def Obligations.ResetMeetsMachineInvariant : Prop :=
  (∀ m : OpcodeMap, m.Ok → ∀ flags0 : Byte, (State.resetWith m flags0).Inv) ∧ State.reset.Inv

/-- Every state a launch starts the executor from meets the invariant and is executing
(spec/70_reset_and_hazards.md R180, R182; decisions D14, D15, log 13). -/
def Obligations.LaunchMeetsMachineInvariant : Prop :=
  ∀ (cfg : LaunchConfig) (r : LoadResult) (s : State), cfg.opcodes.Ok →
    launch cfg r = .ok s → s.Inv ∧ s.executing

/-- spec/10_state.md R35, "Neither is read by any instruction", and R166, R132 (decisions D12, D13,
log 14): two cores that differ only in their traces step alike, and each step only appends to them, the
same records in both. -/
def Obligations.TracesAreNeverRead : Prop :=
  ∀ (s t : State) (out : List Byte) (diag : List Diag), step s = .next t →
    ∃ (newOut : List Byte) (newDiag : List Diag),
      t.out = s.out ++ newOut ∧ t.diag = s.diag ++ newDiag ∧
      step { s with out := out, diag := diag } =
        .next { t with out := out ++ newOut, diag := diag ++ newDiag }

/-- spec/10_state.md R26 (decision D6, log 5): bit 0 is the only bit of the flags register that any
instruction reads. Two cores that differ only in bits 7:1 of `fl` step alike; afterwards their flags are
equal (after a CMP, which writes bits 7:3 too by decision D5, log 6) or both as they were. -/
def Obligations.OnlyEqualBitIsRead : Prop :=
  ∀ (s t : State) (f : Byte), f.getLsbD 0 = s.fl.getLsbD 0 → step s = .next t →
    ∃ f' : Byte, step { s with fl := f } = .next { t with fl := f' } ∧
      (f' = t.fl ∨ (f' = f ∧ t.fl = s.fl))

/-! ## Whole-machine rules over all instructions -/

/-- spec/10_state.md R28: CMP is the only writer of `fl`; no other instruction, and no step that does
not run a CMP, changes it. -/
def Obligations.OnlyCmpWritesFlags : Prop :=
  (∀ (i : Instr) (s t : State), exec i s = .next t → i.mnemonic ≠ .cmp → t.fl = s.fl) ∧
  ∀ s t : State, step s = .next t →
    s.opcodes.mnemonicOf (s.readByte s.pc) ≠ some .cmp → t.fl = s.fl

/-- spec/20_memory.md R45: PUSH and CALL write the one cell at `SP - 1`, PUSH its register's value (read
before the decrement by decision D8, log 7) and CALL the address after itself (decision D17, log 22); POP
and RET write 0 in the one cell at `SP`; every other instruction, and every instruction with a bad
register operand (decision D3, log 3), leaves every cell as it was. -/
def Obligations.OnlyStackInstructionsWriteMemory : Prop :=
  ∀ (i : Instr) (s t : State), exec i s = .next t →
    (i.mnemonic ∉ [Mnemonic.push, .call, .pop, .ret] → SameMemory s t) ∧
    (i.wellFormed = false → SameMemory s t) ∧
    (i.mnemonic ∈ [Mnemonic.push, .call] → SameMemoryExcept (s.getReg sp - 1) s t) ∧
    (∀ r : RegIdx, i = .push (regByte r) → t.readByte (s.getReg sp - 1) = s.getReg r) ∧
    (∀ r : RegIdx, i = .call (regByte r) →
      (t.readByte (s.getReg sp - 1)).toNat =
        (s.pc.toNat + opLen (s.opcodes.byteOf .call)) % 256) ∧
    (i.mnemonic ∈ [Mnemonic.pop, .ret] → SameMemoryExcept (s.getReg sp) s t ∧
      (i.wellFormed = true → t.readByte (s.getReg sp) = 0))

/-- spec/43_load_print.md R132 (decision D12, log 14): only PRN adds to the output trace, and it adds
the one value of its register. -/
def Obligations.OnlyPrnExtendsOutput : Prop :=
  ∀ (i : Instr) (s t : State), exec i s = .next t →
    t.out = s.out ∨ ∃ r : RegIdx, i = .prn (regByte r) ∧ t.out = s.out ++ [s.getReg r]

/-- spec/10_state.md R24: the registers an instruction writes. A register that changes is R7 under
PUSH, POP, CALL or RET, or the register operand A names under LDI, POP, NOT or a two-register ALU
operation other than CMP. -/
def Obligations.RegisterChangesAreNamed : Prop :=
  ∀ (i : Instr) (s t : State) (r : RegIdx), exec i s = .next t → t.getReg r ≠ s.getReg r →
    (r = sp ∧ i.mnemonic ∈ [Mnemonic.push, .pop, .call, .ret]) ∨
    (i.registerOperands.head? = some (regByte r) ∧
      i.mnemonic ∈ [Mnemonic.ldi, .pop, .not, .add, .mul, .mod, .and, .or, .xor, .shl, .shr])

/-- spec/60_exceptions.md R164, R167 (decisions D3, D28; log 3, log 17): an instruction whose first bad
register operand, A before B, is the byte `v` records `BadRegister(pc, v)` and changes nothing else,
`pc` and traces included. -/
def Obligations.BadRegisterOperandRecordsFault : Prop :=
  ∀ (i : Instr) (s : State) (v : Byte),
    i.registerOperands.find? (fun w => decide (8 ≤ w.toNat)) = some v →
    exec i s = .next { s with fault := some (.badRegister s.pc v) }

/-! ## ALU -/

/-- spec/42_alu.md R121: the exact results of the nine register-writing operations, for all values of
the operands, each instruction completing with its flags unchanged; a zero divisor of MOD is the reported
hazard. (The type of instructions has no subtraction and no division.) -/
def Obligations.AluRegisterResults : Prop :=
  ∀ (s : State) (rA rB : RegIdx),
    (∃ t, exec (.add (regByte rA) (regByte rB)) s = .next t ∧ t.fl = s.fl ∧
      (t.getReg rA).toNat = ((s.getReg rA).toNat + (s.getReg rB).toNat) % 256) ∧
    (∃ t, exec (.mul (regByte rA) (regByte rB)) s = .next t ∧ t.fl = s.fl ∧
      (t.getReg rA).toNat = ((s.getReg rA).toNat * (s.getReg rB).toNat) % 256) ∧
    (s.getReg rB ≠ 0 → ∃ t, exec (.mod (regByte rA) (regByte rB)) s = .next t ∧ t.fl = s.fl ∧
      (t.getReg rA).toNat = (s.getReg rA).toNat % (s.getReg rB).toNat ∧
      (t.getReg rA).toNat < (s.getReg rB).toNat) ∧
    (s.getReg rB = 0 → ∃ t, exec (.mod (regByte rA) (regByte rB)) s = .next t ∧ t.fl = s.fl ∧
      t.getReg rA = s.getReg rA ∧ t.diag = s.diag ++ [.modByZero s.pc]) ∧
    (∃ t, exec (.and (regByte rA) (regByte rB)) s = .next t ∧ t.fl = s.fl ∧
      ∀ k, (t.getReg rA).getLsbD k = ((s.getReg rA).getLsbD k && (s.getReg rB).getLsbD k)) ∧
    (∃ t, exec (.or (regByte rA) (regByte rB)) s = .next t ∧ t.fl = s.fl ∧
      ∀ k, (t.getReg rA).getLsbD k = ((s.getReg rA).getLsbD k || (s.getReg rB).getLsbD k)) ∧
    (∃ t, exec (.xor (regByte rA) (regByte rB)) s = .next t ∧ t.fl = s.fl ∧
      ∀ k, (t.getReg rA).getLsbD k = ((s.getReg rA).getLsbD k ^^ (s.getReg rB).getLsbD k)) ∧
    (∃ t, exec (.not (regByte rA)) s = .next t ∧ t.fl = s.fl ∧
      (t.getReg rA).toNat = 255 - (s.getReg rA).toNat) ∧
    (∃ t, exec (.shl (regByte rA) (regByte rB)) s = .next t ∧ t.fl = s.fl ∧
      (t.getReg rA).toNat = ((s.getReg rA).toNat * 2 ^ (s.getReg rB).toNat) % 256 ∧
      (8 ≤ (s.getReg rB).toNat → t.getReg rA = 0)) ∧
    (∃ t, exec (.shr (regByte rA) (regByte rB)) s = .next t ∧ t.fl = s.fl ∧
      (t.getReg rA).toNat = (s.getReg rA).toNat / 2 ^ (s.getReg rB).toNat ∧
      (8 ≤ (s.getReg rB).toNat → t.getReg rA = 0))

/-- The frame of ADD, MUL, AND, OR, XOR, SHL, SHR and NOT, and of MOD with a divisor that is not zero
(spec/42_alu.md R110 to R118, R120; spec/40_execution_loop.md R86): only register A and `pc` change. -/
def Obligations.AluRegisterFrame : Prop :=
  ∀ (s : State) (rA rB : RegIdx) (i : Instr),
    (i ∈ [Instr.add (regByte rA) (regByte rB), .mul (regByte rA) (regByte rB),
        .and (regByte rA) (regByte rB), .or (regByte rA) (regByte rB),
        .xor (regByte rA) (regByte rB), .shl (regByte rA) (regByte rB),
        .shr (regByte rA) (regByte rB), .not (regByte rA)] ∨
      (i = .mod (regByte rA) (regByte rB) ∧ s.getReg rB ≠ 0)) →
    ∃ t, exec i s = .next t ∧ SameRegsExcept [rA] s t ∧ t.fl = s.fl ∧ SameMemory s t ∧
      SameTraces s t ∧ SameExecutor s t ∧ Advanced i.mnemonic s t

/-- spec/60_exceptions.md R162: MOD with a zero divisor register reports the hazard with its own
address, changes no register, flag or cell, advances and stays as it was in all else; no other
instruction reports it. -/
def Obligations.ModByZeroIsReportedAndSkipped : Prop :=
  (∀ (s : State) (rA rB : RegIdx), s.getReg rB = 0 →
    ∃ t, exec (.mod (regByte rA) (regByte rB)) s = .next t ∧
      t.diag = s.diag ++ [.modByZero s.pc] ∧ SameRegsExcept [] s t ∧ t.fl = s.fl ∧
      SameMemory s t ∧ t.out = s.out ∧ SameExecutor s t ∧ Advanced .mod s t) ∧
  ∀ (i : Instr) (s t : State), exec i s = .next t → t.diag ≠ s.diag →
    ∃ rA rB : RegIdx, i = .mod (regByte rA) (regByte rB) ∧ s.getReg rB = 0

/-- spec/42_alu.md R122: for all values of the operands CMP sets exactly one of Equal, Greater, Less,
consistent with their order as integers; ADD and MUL are modulo 256. -/
def Obligations.CmpSetsExactlyOneFlag : Prop :=
  ∀ (s : State) (rA rB : RegIdx),
    (∃ t, exec (.cmp (regByte rA) (regByte rB)) s = .next t ∧
      (t.fl.getLsbD 0 = true ↔ (s.getReg rA).toNat = (s.getReg rB).toNat) ∧
      (t.fl.getLsbD 1 = true ↔ (s.getReg rB).toNat < (s.getReg rA).toNat) ∧
      (t.fl.getLsbD 2 = true ↔ (s.getReg rA).toNat < (s.getReg rB).toNat) ∧
      ∃! k : Fin 3, t.fl.getLsbD k.val = true) ∧
    (∃ t, exec (.add (regByte rA) (regByte rB)) s = .next t ∧
      (t.getReg rA).toNat = ((s.getReg rA).toNat + (s.getReg rB).toNat) % 256) ∧
    (∃ t, exec (.mul (regByte rA) (regByte rB)) s = .next t ∧
      (t.getReg rA).toNat = ((s.getReg rA).toNat * (s.getReg rB).toNat) % 256)

/-- spec/42_alu.md R119: CMP writes the whole flags byte, 0x01, 0x02 or 0x04, and only that and `pc`
change. That bits 7:3 become 0 is decision D5 (log 6). -/
def Obligations.CmpWritesFlagsByteAndFrame : Prop :=
  ∀ (s : State) (rA rB : RegIdx), ∃ t,
    exec (.cmp (regByte rA) (regByte rB)) s = .next t ∧
    t.fl = (if (s.getReg rA).toNat = (s.getReg rB).toNat then 0x01
      else if (s.getReg rB).toNat < (s.getReg rA).toNat then 0x02 else 0x04) ∧
    SameRegsExcept [] s t ∧ SameMemory s t ∧ SameTraces s t ∧ SameExecutor s t ∧
    Advanced .cmp s t

/-! ## Load immediate and print -/

/-- spec/43_load_print.md R130: LDI writes its immediate, whatever byte it is, to register A; only that
register and `pc` change. R7 is written like any other register (decision D22, log 8). -/
def Obligations.LdiLoadsImmediate : Prop :=
  ∀ (s : State) (rA : RegIdx) (imm : Byte), ∃ t,
    exec (.ldi (regByte rA) imm) s = .next t ∧ t.getReg rA = imm ∧
    SameRegsExcept [rA] s t ∧ t.fl = s.fl ∧ SameMemory s t ∧ SameTraces s t ∧
    SameExecutor s t ∧ Advanced .ldi s t

/-- spec/43_load_print.md R131, R132 (decision D12, log 14): PRN appends the value of register A to the
output trace; only that trace and `pc` change. -/
def Obligations.PrnEmitsRegister : Prop :=
  ∀ (s : State) (rA : RegIdx), ∃ t,
    exec (.prn (regByte rA)) s = .next t ∧ t.out = s.out ++ [s.getReg rA] ∧ t.diag = s.diag ∧
    SameRegsExcept [] s t ∧ t.fl = s.fl ∧ SameMemory s t ∧ SameExecutor s t ∧ Advanced .prn s t

/-! ## Stack -/

/-- spec/41_stack.md R101: `Pop` answers the byte at R7, zeroes that cell and increments R7 modulo 256;
no other cell and no other register changes. -/
def Obligations.PopReadsZeroesIncrements : Prop :=
  ∀ s : State, s.pop.1 = s.readByte (s.getReg sp) ∧
    s.pop.2.readByte (s.getReg sp) = 0 ∧
    (s.pop.2.getReg sp).toNat = ((s.getReg sp).toNat + 1) % 256 ∧
    SameMemoryExcept (s.getReg sp) s s.pop.2 ∧ SameRegsExcept [sp] s s.pop.2

/-- spec/41_stack.md R100, R102: PUSH decrements R7 modulo 256 and writes the register's value, read
before the decrement (decision D8, log 7), at the new R7; only R7, that cell and `pc` change. -/
def Obligations.PushStoresBelowStackPointer : Prop :=
  ∀ (s : State) (rA : RegIdx), ∃ t,
    exec (.push (regByte rA)) s = .next t ∧
    (t.getReg sp).toNat = ((s.getReg sp).toNat + 255) % 256 ∧
    t.readByte (t.getReg sp) = s.getReg rA ∧
    SameMemoryExcept (t.getReg sp) s t ∧ SameRegsExcept [sp] s t ∧ t.fl = s.fl ∧
    SameTraces s t ∧ SameExecutor s t ∧ Advanced .push s t

/-- spec/41_stack.md R103, R105: POP writes the byte at R7, whatever it is, to register A, zeroes the
cell and increments R7 modulo 256, unless register A is R7, which keeps the popped byte (decision D10,
log 7); only those registers, that cell and `pc` change. -/
def Obligations.PopLoadsAndZeroes : Prop :=
  ∀ (s : State) (rA : RegIdx), ∃ t,
    exec (.pop (regByte rA)) s = .next t ∧
    t.getReg rA = s.readByte (s.getReg sp) ∧
    (rA ≠ sp → (t.getReg sp).toNat = ((s.getReg sp).toNat + 1) % 256) ∧
    t.readByte (s.getReg sp) = 0 ∧
    SameMemoryExcept (s.getReg sp) s t ∧ SameRegsExcept [sp, rA] s t ∧ t.fl = s.fl ∧
    SameTraces s t ∧ SameExecutor s t ∧ Advanced .pop s t

/-- spec/41_stack.md R104: PUSH Rx then POP Ry copies Rx into Ry, for every x and y including 7, and
restores R7 when y is not 7; the cell written is left 0. For x = 7 it rests on decision D8 and for y = 7
on D10 (log 7). -/
def Obligations.PushThenPopCopies : Prop :=
  ∀ (s : State) (rX rY : RegIdx), ∃ t u,
    exec (.push (regByte rX)) s = .next t ∧ exec (.pop (regByte rY)) t = .next u ∧
    u.getReg rY = s.getReg rX ∧ (rY ≠ sp → u.getReg sp = s.getReg sp) ∧
    u.readByte (s.getReg sp - 1) = 0 ∧ SameMemoryExcept (s.getReg sp - 1) s u ∧
    SameRegsExcept [rY] s u

/-! ## Control -/

/-- spec/44_control.md R140: CALL pushes the address after itself and jumps to the register, read after
the push, so CALL R7 jumps to the decremented value (decisions D9, D17; log 7, log 22); only R7, the
cell it points to and `pc` change. -/
def Obligations.CallPushesReturnAddress : Prop :=
  ∀ (s : State) (rA : RegIdx), ∃ t,
    exec (.call (regByte rA)) s = .next t ∧
    t.pc = (if rA = sp then s.getReg sp - 1 else s.getReg rA) ∧
    (t.getReg sp).toNat = ((s.getReg sp).toNat + 255) % 256 ∧
    (t.readByte (t.getReg sp)).toNat =
      (s.pc.toNat + opLen (s.opcodes.byteOf .call)) % 256 ∧
    SameMemoryExcept (t.getReg sp) s t ∧ SameRegsExcept [sp] s t ∧ t.fl = s.fl ∧
    SameTraces s t ∧ SameExecutor s t

/-- spec/44_control.md R141: RET pops into `pc`, in every state; only R7, the popped cell and `pc`
change. -/
def Obligations.RetPopsProgramCounter : Prop :=
  ∀ s : State, ∃ t,
    exec .ret s = .next t ∧ t.pc = s.readByte (s.getReg sp) ∧
    t.readByte (s.getReg sp) = 0 ∧
    (t.getReg sp).toNat = ((s.getReg sp).toNat + 1) % 256 ∧
    SameMemoryExcept (s.getReg sp) s t ∧ SameRegsExcept [sp] s t ∧ t.fl = s.fl ∧
    SameTraces s t ∧ SameExecutor s t

/-- spec/44_control.md R146: a RET executed when R7 again holds what the CALL's push left, and the cell
there what it wrote, goes to the address after the CALL (decision D17, log 22) and leaves R7 as it was
before the CALL. -/
def Obligations.CallThenRetReturns : Prop :=
  ∀ (s t u : State) (rA : RegIdx), exec (.call (regByte rA)) s = .next t →
    u.getReg sp = t.getReg sp → u.readByte (u.getReg sp) = t.readByte (t.getReg sp) →
    ∃ w, exec .ret u = .next w ∧
      w.pc.toNat = (s.pc.toNat + opLen (s.opcodes.byteOf .call)) % 256 ∧
      w.getReg sp = s.getReg sp

/-- spec/44_control.md R142, R143, R144: JMP goes to the register, JEQ does when bit 0 of `fl` is 1, JNE
when it is 0, and each falls through by its own length otherwise (decision D6, log 5); only `pc`
changes. -/
def Obligations.JumpsFollowEqualFlag : Prop :=
  ∀ (s : State) (rA : RegIdx),
    exec (.jmp (regByte rA)) s = .next { s with pc := s.getReg rA } ∧
    (∃ p : Byte, exec (.jeq (regByte rA)) s = .next { s with pc := p } ∧
      p.toNat = if s.fl.toNat % 2 = 1 then (s.getReg rA).toNat
        else (s.pc.toNat + opLen (s.opcodes.byteOf .jeq)) % 256) ∧
    (∃ p : Byte, exec (.jne (regByte rA)) s = .next { s with pc := p } ∧
      p.toNat = if s.fl.toNat % 2 = 0 then (s.getReg rA).toNat
        else (s.pc.toNat + opLen (s.opcodes.byteOf .jne)) % 256)

/-- spec/44_control.md R145: HLT halts with reason `Hlt`; no register, flag, cell or trace changes, and
`pc` keeps the address of the HLT (decision D7, log 4). -/
def Obligations.HltHaltsInPlace : Prop :=
  ∀ s : State, exec .hlt s = .next { s with run := .halted .hlt }

/-- spec/40_execution_loop.md R85, R86: a step that runs an instruction other than CALL, RET, JMP and HLT,
on registers that exist, and, for JEQ and JNE, whose condition does not hold (decision D6, log 5), moves
`pc` past the instruction by the length of the byte fetched, modulo 256; MOD by zero is one of them. -/
def Obligations.StepAdvancesByFetchedLength : Prop :=
  ∀ (s : State) (i : Instr) (rest : List Byte), s.executing →
    decode s.opcodes [s.readByte s.pc, s.readByte (s.pc + 1), s.readByte (s.pc + 2)] =
      .ok (i, rest) →
    i.wellFormed = true → i.mnemonic ∉ [Mnemonic.call, .ret, .jmp, .hlt] →
    (i.mnemonic = .jeq → s.fl.getLsbD 0 = false) → (i.mnemonic = .jne → s.fl.getLsbD 0 = true) →
    ∃ t, step s = .next t ∧ t.pc.toNat = (s.pc.toNat + opLen (s.readByte s.pc)) % 256

/-- spec/20_memory.md R55 (decision D16, log 23): a stack write is seen by the next fetch, in the opcode
byte and in the operand bytes. Byte `k` of the next instruction is, where it stands in the cell a PUSH
or a CALL wrote, the value pushed (for PUSH R7 the old value by decision D8, log 7; for CALL the address
after it by D17, log 22; CALL R7 jumps by D9, log 7); where it stands in the cell a POP or a RET emptied,
0; anywhere else, what that cell held before. -/
def Obligations.StackWriteIsSeenByNextFetch : Prop :=
  ∀ (s t : State) (r : RegIdx) (k : Nat) (h : k < t.fetch.length),
    (exec (.push (regByte r)) s = .next t →
      t.fetch[k] = if mod8 (t.pc.toNat + k) = s.getReg sp - 1 then s.getReg r
        else s.readByte (mod8 (t.pc.toNat + k))) ∧
    (exec (.call (regByte r)) s = .next t →
      t.fetch[k] = if mod8 (t.pc.toNat + k) = s.getReg sp - 1 then s.nextPc .call
        else s.readByte (mod8 (t.pc.toNat + k))) ∧
    (exec (.pop (regByte r)) s = .next t →
      t.fetch[k] = if mod8 (t.pc.toNat + k) = s.getReg sp then 0
        else s.readByte (mod8 (t.pc.toNat + k))) ∧
    (exec .ret s = .next t →
      t.fetch[k] = if mod8 (t.pc.toNat + k) = s.getReg sp then 0
        else s.readByte (mod8 (t.pc.toNat + k)))
end

