-- ==== Sys2Proof/Laws/PerInstr.lean ====
section
/-! SUPPORT. Facts about every instruction as syntax, one lemma per constructor. -/

namespace Sys2Proof.Laws.Assembles

/-- An instruction has as many operand bytes as its name uses (spec/30_encoding.md R67 (4)), and its
name with those bytes, whatever follows them, assembles to it. -/
def Statement (i : Instr) : Prop :=
  i.operandBytes.length = i.mnemonic.operandsUsed ∧
    ∀ rest, assemble i.mnemonic (i.operandBytes ++ rest) = some i

end Sys2Proof.Laws.Assembles

open Sys2Proof

theorem Sys2Proof.Laws.Assembles.hlt : Sys2Proof.Laws.Assembles.Statement .hlt := ⟨rfl, fun _ => rfl⟩
theorem Sys2Proof.Laws.Assembles.ret : Sys2Proof.Laws.Assembles.Statement .ret := ⟨rfl, fun _ => rfl⟩
theorem Sys2Proof.Laws.Assembles.push (a : Byte) : Sys2Proof.Laws.Assembles.Statement (.push a) := ⟨rfl, fun _ => rfl⟩
theorem Sys2Proof.Laws.Assembles.pop (a : Byte) : Sys2Proof.Laws.Assembles.Statement (.pop a) := ⟨rfl, fun _ => rfl⟩
theorem Sys2Proof.Laws.Assembles.prn (a : Byte) : Sys2Proof.Laws.Assembles.Statement (.prn a) := ⟨rfl, fun _ => rfl⟩
theorem Sys2Proof.Laws.Assembles.call (a : Byte) : Sys2Proof.Laws.Assembles.Statement (.call a) := ⟨rfl, fun _ => rfl⟩
theorem Sys2Proof.Laws.Assembles.jmp (a : Byte) : Sys2Proof.Laws.Assembles.Statement (.jmp a) := ⟨rfl, fun _ => rfl⟩
theorem Sys2Proof.Laws.Assembles.jeq (a : Byte) : Sys2Proof.Laws.Assembles.Statement (.jeq a) := ⟨rfl, fun _ => rfl⟩
theorem Sys2Proof.Laws.Assembles.jne (a : Byte) : Sys2Proof.Laws.Assembles.Statement (.jne a) := ⟨rfl, fun _ => rfl⟩
theorem Sys2Proof.Laws.Assembles.not (a : Byte) : Sys2Proof.Laws.Assembles.Statement (.not a) := ⟨rfl, fun _ => rfl⟩
theorem Sys2Proof.Laws.Assembles.ldi (a b : Byte) : Sys2Proof.Laws.Assembles.Statement (.ldi a b) := ⟨rfl, fun _ => rfl⟩
theorem Sys2Proof.Laws.Assembles.add (a b : Byte) : Sys2Proof.Laws.Assembles.Statement (.add a b) := ⟨rfl, fun _ => rfl⟩
theorem Sys2Proof.Laws.Assembles.mul (a b : Byte) : Sys2Proof.Laws.Assembles.Statement (.mul a b) := ⟨rfl, fun _ => rfl⟩
theorem Sys2Proof.Laws.Assembles.mod (a b : Byte) : Sys2Proof.Laws.Assembles.Statement (.mod a b) := ⟨rfl, fun _ => rfl⟩
theorem Sys2Proof.Laws.Assembles.cmp (a b : Byte) : Sys2Proof.Laws.Assembles.Statement (.cmp a b) := ⟨rfl, fun _ => rfl⟩
theorem Sys2Proof.Laws.Assembles.and (a b : Byte) : Sys2Proof.Laws.Assembles.Statement (.and a b) := ⟨rfl, fun _ => rfl⟩
theorem Sys2Proof.Laws.Assembles.or (a b : Byte) : Sys2Proof.Laws.Assembles.Statement (.or a b) := ⟨rfl, fun _ => rfl⟩
theorem Sys2Proof.Laws.Assembles.xor (a b : Byte) : Sys2Proof.Laws.Assembles.Statement (.xor a b) := ⟨rfl, fun _ => rfl⟩
theorem Sys2Proof.Laws.Assembles.shl (a b : Byte) : Sys2Proof.Laws.Assembles.Statement (.shl a b) := ⟨rfl, fun _ => rfl⟩
theorem Sys2Proof.Laws.Assembles.shr (a b : Byte) : Sys2Proof.Laws.Assembles.Statement (.shr a b) := ⟨rfl, fun _ => rfl⟩
end

