-- ==== Sys2Proof/Laws/Word.lean ====
section
/-! SUPPORT. Narrowing to 8 bits (spec/00_scope.md R11). -/

namespace Sys2Proof

@[simp] theorem toNat_mod8 (n : Nat) : (mod8 n).toNat = n % 256 := by simp [mod8]

theorem byte_lt (v : Byte) : v.toNat < 256 := v.isLt

@[simp] theorem mod8_toNat (v : Byte) : mod8 v.toNat = v := by simp [mod8]

theorem mod8_add (v : Byte) (n : Nat) : mod8 (v.toNat + n) = v + mod8 n := by
  apply BitVec.eq_of_toNat_eq
  simp

end Sys2Proof
end

