-- ==== Sys2Proof/Laws/Decode.lean ====
section
/-! SUPPORT. The opcode map and the decoder (spec/30_encoding.md R61, R65, R67). -/

namespace Sys2Proof

theorem Mnemonic.mem_all (op : Mnemonic) : op ∈ Mnemonic.all := by cases op <;> decide

/-- The length is 1, 2 or 3, so there are at most two operand bytes (spec/30_encoding.md R60). -/
theorem operandCount_le_two (ir : Byte) : operandCount ir ≤ 2 := by
  unfold operandCount opLen
  split
  · decide
  · split <;> decide

theorem opLen_eq_operandCount_add_one (ir : Byte) : opLen ir = operandCount ir + 1 := by
  unfold operandCount opLen
  split
  · rfl
  · split <;> rfl

/-- The twenty bytes of a map that meets R67 (2) are distinct. -/
theorem OpcodeMap.Ok.byteOf_injective {m : OpcodeMap} (h : m.Ok) {op op' : Mnemonic}
    (e : m.byteOf op = m.byteOf op') : op = op' :=
  List.inj_on_of_nodup_map h.2.1 (Mnemonic.mem_all op) (Mnemonic.mem_all op') e

/-- An instruction's operand bytes are within its length (spec/30_encoding.md R67 (4)). -/
theorem OpcodeMap.Ok.operandsUsed_le {m : OpcodeMap} (h : m.Ok) (op : Mnemonic) :
    op.operandsUsed ≤ operandCount (m.byteOf op) :=
  h.2.2.2 op (Mnemonic.mem_all op)

theorem OpcodeMap.Ok.hlt_eq {m : OpcodeMap} (h : m.Ok) : m.hlt = 0x01 := h.1.2.2

theorem OpcodeMap.byteOf_of_mnemonicOf {m : OpcodeMap} {ir : Byte} {op : Mnemonic}
    (h : m.mnemonicOf ir = some op) : m.byteOf op = ir := by
  simpa using List.find?_some h

theorem OpcodeMap.mnemonicOf_eq_none {m : OpcodeMap} {ir : Byte} :
    m.mnemonicOf ir = none ↔ ∀ op, m.byteOf op ≠ ir := by
  simp [OpcodeMap.mnemonicOf, Mnemonic.mem_all]

theorem OpcodeMap.Ok.mnemonicOf_byteOf {m : OpcodeMap} (h : m.Ok) (op : Mnemonic) :
    m.mnemonicOf (m.byteOf op) = some op := by
  cases hm : m.mnemonicOf (m.byteOf op) with
  | none => exact absurd rfl (OpcodeMap.mnemonicOf_eq_none.mp hm op)
  | some op' => rw [h.byteOf_injective (OpcodeMap.byteOf_of_mnemonicOf hm)]

/-- The case split over the twenty instructions of `Laws.Assembles`. -/
theorem Instr.assembles (i : Instr) : Laws.Assembles.Statement i := by
  cases i with
  | hlt => exact Laws.Assembles.hlt
  | ret => exact Laws.Assembles.ret
  | push a => exact Laws.Assembles.push a
  | pop a => exact Laws.Assembles.pop a
  | prn a => exact Laws.Assembles.prn a
  | call a => exact Laws.Assembles.call a
  | jmp a => exact Laws.Assembles.jmp a
  | jeq a => exact Laws.Assembles.jeq a
  | jne a => exact Laws.Assembles.jne a
  | not a => exact Laws.Assembles.not a
  | ldi a b => exact Laws.Assembles.ldi a b
  | add a b => exact Laws.Assembles.add a b
  | mul a b => exact Laws.Assembles.mul a b
  | mod a b => exact Laws.Assembles.mod a b
  | cmp a b => exact Laws.Assembles.cmp a b
  | and a b => exact Laws.Assembles.and a b
  | or a b => exact Laws.Assembles.or a b
  | xor a b => exact Laws.Assembles.xor a b
  | shl a b => exact Laws.Assembles.shl a b
  | shr a b => exact Laws.Assembles.shr a b

theorem assemble_one {op : Mnemonic} {a : Byte} (l : List Byte) (h : op.operandsUsed ≤ 1) :
    assemble op (a :: l) = assemble op [a] := by
  cases op <;> simp [Mnemonic.operandsUsed] at h <;> rfl

/-- `assemble` answers an instruction exactly when there are enough operand bytes; it then has the
name it was given, and its operand bytes are the first ones of the list. -/
theorem assemble_isSome {op : Mnemonic} {l : List Byte} (h : op.operandsUsed ≤ l.length) :
    ∃ i, assemble op l = some i ∧ i.mnemonic = op ∧ i.operandBytes = l.take op.operandsUsed := by
  match l with
  | [] => cases op <;> simp [Mnemonic.operandsUsed] at h <;> exact ⟨_, rfl, rfl, rfl⟩
  | [_] => cases op <;> simp [Mnemonic.operandsUsed] at h <;> exact ⟨_, rfl, rfl, rfl⟩
  | _ :: _ :: _ => cases op <;> exact ⟨_, rfl, rfl, rfl⟩

theorem assemble_eq_none {op : Mnemonic} {l : List Byte} (h : l.length < op.operandsUsed) :
    assemble op l = none := by
  match l with
  | [] => cases op <;> simp [Mnemonic.operandsUsed] at h <;> rfl
  | [_] => cases op <;> simp [Mnemonic.operandsUsed] at h <;> rfl
  | _ :: _ :: l => cases op <;> simp [Mnemonic.operandsUsed] at h

theorem assemble_inv {op : Mnemonic} {l : List Byte} {i : Instr} (h : assemble op l = some i) :
    i.mnemonic = op ∧ i.operandBytes = l.take op.operandsUsed ∧ op.operandsUsed ≤ l.length := by
  by_cases hl : op.operandsUsed ≤ l.length
  · obtain ⟨j, hj, hm, hb⟩ := assemble_isSome hl
    obtain rfl : j = i := Option.some.inj (hj.symm.trans h)
    exact ⟨hm, hb, hl⟩
  · rw [assemble_eq_none (by omega)] at h
    cases h

/-- Decoding an opcode byte that is in no map entry, whatever follows it. -/
theorem decode_undefined {m : OpcodeMap} {ir : Byte} (rest : List Byte)
    (h : m.mnemonicOf ir = none) : decode m (ir :: rest) = .error (.undefinedOpcode ir) := by
  simp [decode, h]

/-- Decoding a defined opcode byte with enough bytes after it, whose operand bytes assemble. -/
theorem decode_defined {m : OpcodeMap} {ir : Byte} {op : Mnemonic} {rest : List Byte} {i : Instr}
    (h : m.mnemonicOf ir = some op) (hl : operandCount ir ≤ rest.length)
    (ha : assemble op (rest.take (operandCount ir)) = some i) :
    decode m (ir :: rest) = .ok (i, rest.drop (operandCount ir)) := by
  simp [decode, h, Nat.not_lt.mpr hl, ha]

/-- The same when they do not: the map gives the instruction fewer bytes than it uses. -/
theorem decode_operandMissing {m : OpcodeMap} {ir : Byte} {op : Mnemonic} {rest : List Byte}
    (h : m.mnemonicOf ir = some op) (hl : operandCount ir ≤ rest.length)
    (ha : assemble op (rest.take (operandCount ir)) = none) :
    decode m (ir :: rest) = .error (.operandMissing op) := by
  simp [decode, h, Nat.not_lt.mpr hl, ha]

/-- Everything the decoder can answer on a list that starts with `ir` and is long enough. -/
theorem OpcodeMap.Ok.decode_cases {m : OpcodeMap} (hm : m.Ok) {ir : Byte} {rest : List Byte}
    (hl : operandCount ir ≤ rest.length) :
    (m.mnemonicOf ir = none ∧ decode m (ir :: rest) = .error (.undefinedOpcode ir)) ∨
      ∃ i, m.mnemonicOf ir = some i.mnemonic ∧ m.byteOf i.mnemonic = ir ∧
        i.operandBytes = rest.take i.mnemonic.operandsUsed ∧
        decode m (ir :: rest) = .ok (i, rest.drop (operandCount ir)) := by
  cases h : m.mnemonicOf ir with
  | none => exact .inl ⟨rfl, decode_undefined rest h⟩
  | some op =>
    have hb := OpcodeMap.byteOf_of_mnemonicOf h
    have hu : op.operandsUsed ≤ operandCount ir := hb ▸ hm.operandsUsed_le op
    obtain ⟨i, hi, hn, ho⟩ :=
      assemble_isSome (op := op) (l := rest.take (operandCount ir)) (by simp; omega)
    refine .inr ⟨i, by rw [hn], by rw [hn, hb], ?_, ?_⟩
    · rw [ho, hn, List.take_take, Nat.min_eq_left hu]
    · exact decode_defined h hl hi

/-- What a successful decoding says, whatever the map. -/
theorem decode_ok_inv {m : OpcodeMap} {bs : List Byte} {i : Instr} {rest : List Byte}
    (h : decode m bs = .ok (i, rest)) :
    ∃ ir tail, bs = ir :: tail ∧ m.mnemonicOf ir = some i.mnemonic ∧
      operandCount ir ≤ tail.length ∧ i.mnemonic.operandsUsed ≤ operandCount ir ∧
      i.operandBytes = tail.take i.mnemonic.operandsUsed ∧ rest = tail.drop (operandCount ir) := by
  cases bs with
  | nil => simp [decode] at h
  | cons ir tail =>
    cases hop : m.mnemonicOf ir with
    | none => simp [decode_undefined tail hop] at h
    | some op =>
      by_cases hl : operandCount ir ≤ tail.length
      · cases hj : assemble op (tail.take (operandCount ir)) with
        | none => simp [decode_operandMissing hop hl hj] at h
        | some j =>
          rw [decode_defined hop hl hj] at h
          obtain ⟨hn, ho, hlen⟩ := assemble_inv hj
          simp only [Except.ok.injEq, Prod.mk.injEq] at h
          obtain ⟨rfl, rfl⟩ := h
          have hu : op.operandsUsed ≤ operandCount ir := by
            simp only [List.length_take] at hlen
            omega
          refine ⟨ir, tail, rfl, by rw [hn]; exact hop, hl, by rw [hn]; exact hu, ?_, rfl⟩
          rw [ho, hn, List.take_take, Nat.min_eq_left hu]
      · simp [decode, hop, Nat.lt_of_not_le hl] at h

end Sys2Proof
end

