-- ==== Sys2Proof/Laws/State.lean ====
section
/-! SUPPORT. One lemma per field per update of the state, true by rfl, so that no later proof unfolds
a record update. -/

namespace Sys2Proof.Machine

variable (s : State)

/-! ### writeByte -/

@[simp] theorem State.writeByte_pc (a v : Byte) : (s.writeByte a v).pc = s.pc := rfl
@[simp] theorem State.writeByte_fl (a v : Byte) : (s.writeByte a v).fl = s.fl := rfl
@[simp] theorem State.writeByte_regs (a v : Byte) : (s.writeByte a v).regs = s.regs := rfl
@[simp] theorem State.writeByte_mem (a v : Byte) : (s.writeByte a v).mem = s.mem.write a.toNat v := rfl
@[simp] theorem State.writeByte_run (a v : Byte) : (s.writeByte a v).run = s.run := rfl
@[simp] theorem State.writeByte_out (a v : Byte) : (s.writeByte a v).out = s.out := rfl
@[simp] theorem State.writeByte_diag (a v : Byte) : (s.writeByte a v).diag = s.diag := rfl
@[simp] theorem State.writeByte_fault (a v : Byte) : (s.writeByte a v).fault = s.fault := rfl
@[simp] theorem State.writeByte_opcodes (a v : Byte) : (s.writeByte a v).opcodes = s.opcodes := rfl

/-! ### setReg -/

@[simp] theorem State.setReg_pc (r : RegIdx) (v : Byte) : (s.setReg r v).pc = s.pc := rfl
@[simp] theorem State.setReg_fl (r : RegIdx) (v : Byte) : (s.setReg r v).fl = s.fl := rfl
@[simp] theorem State.setReg_regs (r : RegIdx) (v : Byte) : (s.setReg r v).regs = s.regs.set r v := rfl
@[simp] theorem State.setReg_mem (r : RegIdx) (v : Byte) : (s.setReg r v).mem = s.mem := rfl
@[simp] theorem State.setReg_run (r : RegIdx) (v : Byte) : (s.setReg r v).run = s.run := rfl
@[simp] theorem State.setReg_out (r : RegIdx) (v : Byte) : (s.setReg r v).out = s.out := rfl
@[simp] theorem State.setReg_diag (r : RegIdx) (v : Byte) : (s.setReg r v).diag = s.diag := rfl
@[simp] theorem State.setReg_fault (r : RegIdx) (v : Byte) : (s.setReg r v).fault = s.fault := rfl
@[simp] theorem State.setReg_opcodes (r : RegIdx) (v : Byte) : (s.setReg r v).opcodes = s.opcodes := rfl

/-! ### redirect -/

@[simp] theorem State.redirect_pc (t : Byte) : (s.redirect t).pc = t := rfl
@[simp] theorem State.redirect_fl (t : Byte) : (s.redirect t).fl = s.fl := rfl
@[simp] theorem State.redirect_regs (t : Byte) : (s.redirect t).regs = s.regs := rfl
@[simp] theorem State.redirect_mem (t : Byte) : (s.redirect t).mem = s.mem := rfl
@[simp] theorem State.redirect_run (t : Byte) : (s.redirect t).run = s.run := rfl
@[simp] theorem State.redirect_out (t : Byte) : (s.redirect t).out = s.out := rfl
@[simp] theorem State.redirect_diag (t : Byte) : (s.redirect t).diag = s.diag := rfl
@[simp] theorem State.redirect_fault (t : Byte) : (s.redirect t).fault = s.fault := rfl
@[simp] theorem State.redirect_opcodes (t : Byte) : (s.redirect t).opcodes = s.opcodes := rfl

/-! ### advance -/

@[simp] theorem State.advance_pc (op : Mnemonic) : (s.advance op).pc = s.nextPc op := rfl
@[simp] theorem State.advance_fl (op : Mnemonic) : (s.advance op).fl = s.fl := rfl
@[simp] theorem State.advance_regs (op : Mnemonic) : (s.advance op).regs = s.regs := rfl
@[simp] theorem State.advance_mem (op : Mnemonic) : (s.advance op).mem = s.mem := rfl
@[simp] theorem State.advance_run (op : Mnemonic) : (s.advance op).run = s.run := rfl
@[simp] theorem State.advance_out (op : Mnemonic) : (s.advance op).out = s.out := rfl
@[simp] theorem State.advance_diag (op : Mnemonic) : (s.advance op).diag = s.diag := rfl
@[simp] theorem State.advance_fault (op : Mnemonic) : (s.advance op).fault = s.fault := rfl
@[simp] theorem State.advance_opcodes (op : Mnemonic) : (s.advance op).opcodes = s.opcodes := rfl

/-! ### setFlags -/

@[simp] theorem State.setFlags_pc (f : Byte) : (s.setFlags f).pc = s.pc := rfl
@[simp] theorem State.setFlags_fl (f : Byte) : (s.setFlags f).fl = f := rfl
@[simp] theorem State.setFlags_regs (f : Byte) : (s.setFlags f).regs = s.regs := rfl
@[simp] theorem State.setFlags_mem (f : Byte) : (s.setFlags f).mem = s.mem := rfl
@[simp] theorem State.setFlags_run (f : Byte) : (s.setFlags f).run = s.run := rfl
@[simp] theorem State.setFlags_out (f : Byte) : (s.setFlags f).out = s.out := rfl
@[simp] theorem State.setFlags_diag (f : Byte) : (s.setFlags f).diag = s.diag := rfl
@[simp] theorem State.setFlags_fault (f : Byte) : (s.setFlags f).fault = s.fault := rfl
@[simp] theorem State.setFlags_opcodes (f : Byte) : (s.setFlags f).opcodes = s.opcodes := rfl

/-! ### emit -/

@[simp] theorem State.emit_pc (v : Byte) : (s.emit v).pc = s.pc := rfl
@[simp] theorem State.emit_fl (v : Byte) : (s.emit v).fl = s.fl := rfl
@[simp] theorem State.emit_regs (v : Byte) : (s.emit v).regs = s.regs := rfl
@[simp] theorem State.emit_mem (v : Byte) : (s.emit v).mem = s.mem := rfl
@[simp] theorem State.emit_run (v : Byte) : (s.emit v).run = s.run := rfl
@[simp] theorem State.emit_out (v : Byte) : (s.emit v).out = s.out ++ [v] := rfl
@[simp] theorem State.emit_diag (v : Byte) : (s.emit v).diag = s.diag := rfl
@[simp] theorem State.emit_fault (v : Byte) : (s.emit v).fault = s.fault := rfl
@[simp] theorem State.emit_opcodes (v : Byte) : (s.emit v).opcodes = s.opcodes := rfl

/-! ### report -/

@[simp] theorem State.report_pc (d : Diag) : (s.report d).pc = s.pc := rfl
@[simp] theorem State.report_fl (d : Diag) : (s.report d).fl = s.fl := rfl
@[simp] theorem State.report_regs (d : Diag) : (s.report d).regs = s.regs := rfl
@[simp] theorem State.report_mem (d : Diag) : (s.report d).mem = s.mem := rfl
@[simp] theorem State.report_run (d : Diag) : (s.report d).run = s.run := rfl
@[simp] theorem State.report_out (d : Diag) : (s.report d).out = s.out := rfl
@[simp] theorem State.report_diag (d : Diag) : (s.report d).diag = s.diag ++ [d] := rfl
@[simp] theorem State.report_fault (d : Diag) : (s.report d).fault = s.fault := rfl
@[simp] theorem State.report_opcodes (d : Diag) : (s.report d).opcodes = s.opcodes := rfl

/-! ### halt -/

@[simp] theorem State.halt_pc (r : HaltReason) : (s.halt r).pc = s.pc := rfl
@[simp] theorem State.halt_fl (r : HaltReason) : (s.halt r).fl = s.fl := rfl
@[simp] theorem State.halt_regs (r : HaltReason) : (s.halt r).regs = s.regs := rfl
@[simp] theorem State.halt_mem (r : HaltReason) : (s.halt r).mem = s.mem := rfl
@[simp] theorem State.halt_run (r : HaltReason) : (s.halt r).run = .halted r := rfl
@[simp] theorem State.halt_out (r : HaltReason) : (s.halt r).out = s.out := rfl
@[simp] theorem State.halt_diag (r : HaltReason) : (s.halt r).diag = s.diag := rfl
@[simp] theorem State.halt_fault (r : HaltReason) : (s.halt r).fault = s.fault := rfl
@[simp] theorem State.halt_opcodes (r : HaltReason) : (s.halt r).opcodes = s.opcodes := rfl

/-! ### raiseBadRegister -/

@[simp] theorem State.raiseBadRegister_pc (v : Byte) : (s.raiseBadRegister v).pc = s.pc := rfl
@[simp] theorem State.raiseBadRegister_fl (v : Byte) : (s.raiseBadRegister v).fl = s.fl := rfl
@[simp] theorem State.raiseBadRegister_regs (v : Byte) : (s.raiseBadRegister v).regs = s.regs := rfl
@[simp] theorem State.raiseBadRegister_mem (v : Byte) : (s.raiseBadRegister v).mem = s.mem := rfl
@[simp] theorem State.raiseBadRegister_run (v : Byte) : (s.raiseBadRegister v).run = s.run := rfl
@[simp] theorem State.raiseBadRegister_out (v : Byte) : (s.raiseBadRegister v).out = s.out := rfl
@[simp] theorem State.raiseBadRegister_diag (v : Byte) : (s.raiseBadRegister v).diag = s.diag := rfl
@[simp] theorem State.raiseBadRegister_fault (v : Byte) : (s.raiseBadRegister v).fault = some (.badRegister s.pc v) := rfl
@[simp] theorem State.raiseBadRegister_opcodes (v : Byte) : (s.raiseBadRegister v).opcodes = s.opcodes := rfl

/-! ### push -/

@[simp] theorem State.push_pc (v : Byte) : (s.push v).pc = s.pc := rfl
@[simp] theorem State.push_fl (v : Byte) : (s.push v).fl = s.fl := rfl
@[simp] theorem State.push_regs (v : Byte) : (s.push v).regs = s.regs.set sp (s.getReg sp - 1) := rfl
@[simp] theorem State.push_mem (v : Byte) : (s.push v).mem = s.mem.write (s.getReg sp - 1).toNat v := rfl
@[simp] theorem State.push_run (v : Byte) : (s.push v).run = s.run := rfl
@[simp] theorem State.push_out (v : Byte) : (s.push v).out = s.out := rfl
@[simp] theorem State.push_diag (v : Byte) : (s.push v).diag = s.diag := rfl
@[simp] theorem State.push_fault (v : Byte) : (s.push v).fault = s.fault := rfl
@[simp] theorem State.push_opcodes (v : Byte) : (s.push v).opcodes = s.opcodes := rfl

/-! ### pop -/

@[simp] theorem State.pop_fst : s.pop.1 = s.readByte (s.getReg sp) := rfl
@[simp] theorem State.pop_snd_pc : s.pop.2.pc = s.pc := rfl
@[simp] theorem State.pop_snd_fl : s.pop.2.fl = s.fl := rfl
@[simp] theorem State.pop_snd_regs : s.pop.2.regs = s.regs.set sp (s.getReg sp + 1) := rfl
@[simp] theorem State.pop_snd_mem : s.pop.2.mem = s.mem.write (s.getReg sp).toNat 0 := rfl
@[simp] theorem State.pop_snd_run : s.pop.2.run = s.run := rfl
@[simp] theorem State.pop_snd_out : s.pop.2.out = s.out := rfl
@[simp] theorem State.pop_snd_diag : s.pop.2.diag = s.diag := rfl
@[simp] theorem State.pop_snd_fault : s.pop.2.fault = s.fault := rfl
@[simp] theorem State.pop_snd_opcodes : s.pop.2.opcodes = s.opcodes := rfl

/-! ### reset -/

variable (m : OpcodeMap) (f : Byte)

@[simp] theorem State.resetWith_pc : (State.resetWith m f).pc = 0 := rfl
@[simp] theorem State.resetWith_fl : (State.resetWith m f).fl = f := rfl
@[simp] theorem State.resetWith_mem : (State.resetWith m f).mem = [] := rfl
@[simp] theorem State.resetWith_run : (State.resetWith m f).run = .running := rfl
@[simp] theorem State.resetWith_out : (State.resetWith m f).out = [] := rfl
@[simp] theorem State.resetWith_diag : (State.resetWith m f).diag = [] := rfl
@[simp] theorem State.resetWith_fault : (State.resetWith m f).fault = none := rfl
@[simp] theorem State.resetWith_opcodes : (State.resetWith m f).opcodes = m := rfl

/-! ### the default launch (spec/00_scope.md R9) -/

variable (lt : List Char)

@[simp] theorem defaultLaunch_opcodes : (defaultLaunch f lt).opcodes = defaultOpcodes := rfl
@[simp] theorem defaultLaunch_flags0 : (defaultLaunch f lt).flags0 = f := rfl
@[simp] theorem defaultLaunch_runOnLoadError : (defaultLaunch f lt).runOnLoadError = false := rfl
@[simp] theorem defaultLaunch_lineTerminator : (defaultLaunch f lt).lineTerminator = lt := rfl

end Sys2Proof.Machine
end

