-- ==== Sys2Proof/Laws/Ops.lean ====
section
/-! SUPPORT. The named operations: registers, bytes of memory, the stack, the fetch, and when a state
has no step. -/

namespace Sys2Proof.Machine

/-! ## Registers -/

@[simp] theorem State.getReg_setReg_self (s : State) (r : RegIdx) (v : Byte) :
    (s.setReg r v).getReg r = v := by
  simp [State.getReg]

theorem State.getReg_setReg (s : State) (r q : RegIdx) (v : Byte) :
    (s.setReg r v).getReg q = if q = r then v else s.getReg q := by
  by_cases h : q = r
  · simp [h]
  · simp [State.getReg, h, Vector.getElem_set_ne, Fin.val_ne_of_ne (Ne.symm h)]

/-- Registers are read from the field `regs` alone. -/
theorem State.getReg_congr {s t : State} (h : t.regs = s.regs) (r : RegIdx) :
    t.getReg r = s.getReg r := by
  simp [State.getReg, h]

/-- Bytes are read from the field `mem` alone. -/
theorem State.readByte_congr {s t : State} (h : t.mem = s.mem) (a : Byte) :
    t.readByte a = s.readByte a := by
  simp [State.readByte, h]

theorem State.readByte_writeByte (s : State) (a v x : Byte) :
    (s.writeByte a v).readByte x = if x = a then v else s.readByte x := by
  simp [State.readByte, Memory.read_write, BitVec.toNat_inj]

@[simp] theorem State.nextPc_toNat (s : State) (op : Mnemonic) :
    (s.nextPc op).toNat = (s.pc.toNat + opLen (s.opcodes.byteOf op)) % 256 := by
  simp [State.nextPc]

/-! ## Stack (spec/41_stack.md R100, R101) -/

theorem State.getReg_push (s : State) (v : Byte) (r : RegIdx) :
    (s.push v).getReg r = if r = sp then s.getReg sp - 1 else s.getReg r := by
  rw [← State.getReg_setReg]
  exact State.getReg_congr (by simp) r

theorem State.readByte_push (s : State) (v x : Byte) :
    (s.push v).readByte x = if x = s.getReg sp - 1 then v else s.readByte x := by
  simp only [State.readByte, State.push_mem, Memory.read_write, BitVec.toNat_inj]

theorem State.getReg_pop (s : State) (r : RegIdx) :
    s.pop.2.getReg r = if r = sp then s.getReg sp + 1 else s.getReg r := by
  rw [← State.getReg_setReg]
  exact State.getReg_congr (by simp) r

theorem State.readByte_pop (s : State) (x : Byte) :
    s.pop.2.readByte x = if x = s.getReg sp then 0 else s.readByte x := by
  simp [State.readByte, Memory.read_write, BitVec.toNat_inj]

/-! ## The canonical form, through the state's own operations -/

theorem State.wf_writeByte {s : State} (h : s.mem.wf) (a v : Byte) : (s.writeByte a v).mem.wf :=
  Memory.wf_write h (byte_lt a) v

theorem State.wf_push {s : State} (h : s.mem.wf) (v : Byte) : (s.push v).mem.wf :=
  Memory.wf_write h (byte_lt _) v

theorem State.wf_pop {s : State} (h : s.mem.wf) : s.pop.2.mem.wf := Memory.wf_write h (byte_lt _) 0

theorem State.wf_load {s : State} (h : s.mem.wf) {img : List Byte} (hl : img.length ≤ 256) :
    (s.load img).mem.wf :=
  Memory.wf_loadFrom h img (by omega)

theorem State.wf_storeBytes {s : State} (h : s.mem.wf) (a : Byte) (bs : List Byte) :
    (s.storeBytes a bs).mem.wf := by
  induction bs generalizing s a with
  | nil => exact h
  | cons v vs ih => exact ih (State.wf_writeByte h a v) (a + 1)

/-! ## When a state has no step (spec/40_execution_loop.md R80, R92) -/

theorem State.stopped_eq_none {s : State} :
    s.stopped = none ↔ s.run = .running ∧ s.fault = none := by
  unfold State.stopped
  cases hf : s.fault <;> cases hr : s.run <;> simp

/-! ## Fetch (spec/40_execution_loop.md R81) -/

/-- The fetch as the opcode byte and the operand bytes after it. -/
theorem State.fetch_eq (s : State) :
    s.fetch = s.readByte s.pc :: (List.range (operandCount (s.readByte s.pc))).map
      fun k => s.readByte (mod8 (s.pc.toNat + (k + 1))) := rfl

theorem State.fetch_congr {s t : State} (hpc : t.pc = s.pc) (hmem : t.mem = s.mem) :
    t.fetch = s.fetch := by
  simp [State.fetch, State.readByte, hpc, hmem]

/-- Byte `k` of the fetched instruction is the cell at `mod8(pc + k)`. -/
theorem State.fetch_getElem (s : State) (k : Nat) (h : k < s.fetch.length) :
    s.fetch[k] = s.readByte (mod8 (s.pc.toNat + k)) := by
  cases k with
  | zero => simp [State.fetch]
  | succ k => simp [State.fetch]

@[simp] theorem State.length_fetch (s : State) :
    s.fetch.length = opLen (s.readByte s.pc) := by
  simp [State.fetch, opLen_eq_operandCount_add_one]

end Sys2Proof.Machine
end

