-- ==== Sys2Proof/Laws/Operands.lean ====
section
/-! SUPPORT. The register-operand check (spec/30_encoding.md R63; spec/40_execution_loop.md R83). -/

namespace Sys2Proof.Machine

@[simp] theorem toNat_regByte (r : RegIdx) : (regByte r).toNat = r.val := by
  simp [regByte]
  omega

@[simp] theorem reg?_regByte (r : RegIdx) : reg? (regByte r) = some r := by
  simp [reg?]

theorem reg?_eq_none {v : Byte} : reg? v = none ↔ 8 ≤ v.toNat := by
  simp [reg?]

theorem reg?_eq_some {v : Byte} {r : RegIdx} : reg? v = some r ↔ v = regByte r := by
  constructor
  · intro h
    unfold reg? at h
    split at h
    · cases h
      apply BitVec.eq_of_toNat_eq
      simp
    · cases h
  · rintro rfl
    simp

/-- An operand byte names a register or none. -/
theorem operand_cases (v : Byte) : (∃ r, v = regByte r) ∨ 8 ≤ v.toNat := by
  cases h : reg? v with
  | none => exact .inr (reg?_eq_none.mp h)
  | some r => exact .inl ⟨r, reg?_eq_some.mp h⟩

variable {s t : State} {k : RegIdx → Host.Outcome State Fault Refusal}

@[simp] theorem withReg_regByte (r : RegIdx) : withReg (regByte r) s k = k r := by
  simp [withReg]

theorem withReg_bad {v : Byte} (h : 8 ≤ v.toNat) : withReg v s k = .next (s.raiseBadRegister v) := by
  simp [withReg, reg?_eq_none.mpr h]

/-- Everything `withReg` can do. -/
theorem withReg_next {v : Byte} (h : withReg v s k = .next t) :
    (∃ r, v = regByte r ∧ k r = .next t) ∨ (8 ≤ v.toNat ∧ t = s.raiseBadRegister v) := by
  rcases operand_cases v with ⟨r, rfl⟩ | hv
  · exact .inl ⟨r, rfl, by simpa using h⟩
  · rw [withReg_bad hv] at h
    exact .inr ⟨hv, by cases h; rfl⟩

end Sys2Proof.Machine
end

