-- ==== Sys2Proof/Laws/Exec.lean ====
section
/-! SUPPORT. What each instruction does on register operands, one lemma each, and once what an
instruction can do at all. -/

namespace Sys2Proof.Machine

variable (s : State) (rA rB : RegIdx)

/-! ## One lemma per instruction -/

theorem exec_hlt : exec .hlt s = .next (s.halt .hlt) := rfl

theorem exec_ret : exec .ret s = .next (s.pop.2.redirect s.pop.1) := rfl

theorem exec_push :
    exec (.push (regByte rA)) s = .next ((s.push (s.getReg rA)).advance .push) := by
  simp [exec, execPush]

theorem exec_pop :
    exec (.pop (regByte rA)) s = .next ((s.pop.2.setReg rA s.pop.1).advance .pop) := by
  simp [exec, execPop]

theorem exec_prn : exec (.prn (regByte rA)) s = .next ((s.emit (s.getReg rA)).advance .prn) := by
  simp [exec, execPrn]

theorem exec_call :
    exec (.call (regByte rA)) s =
      .next ((s.push (s.nextPc .call)).redirect ((s.push (s.nextPc .call)).getReg rA)) := by
  simp [exec, execCall]

theorem exec_jmp : exec (.jmp (regByte rA)) s = .next (s.redirect (s.getReg rA)) := by
  simp [exec, execJmp]

theorem exec_jeq :
    exec (.jeq (regByte rA)) s =
      .next (s.redirect (if s.equalFlag then s.getReg rA else s.nextPc .jeq)) := by
  simp [exec, execJeq]

theorem exec_jne :
    exec (.jne (regByte rA)) s =
      .next (s.redirect (if s.equalFlag then s.nextPc .jne else s.getReg rA)) := by
  simp [exec, execJne]

theorem exec_not :
    exec (.not (regByte rA)) s =
      .next ((s.setReg rA (mod8 (255 - (s.getReg rA).toNat))).advance .not) := by
  simp [exec, execNot, alu, State.applyAlu]

theorem exec_ldi (imm : Byte) :
    exec (.ldi (regByte rA) imm) s = .next ((s.setReg rA imm).advance .ldi) := by
  simp [exec, execLdi]

theorem exec_add :
    exec (.add (regByte rA) (regByte rB)) s =
      .next ((s.setReg rA (mod8 ((s.getReg rA).toNat + (s.getReg rB).toNat))).advance .add) := by
  simp [exec, execAdd, execAlu2, withRegs, alu, State.applyAlu]

theorem exec_mul :
    exec (.mul (regByte rA) (regByte rB)) s =
      .next ((s.setReg rA (mod8 ((s.getReg rA).toNat * (s.getReg rB).toNat))).advance .mul) := by
  simp [exec, execMul, execAlu2, withRegs, alu, State.applyAlu]

theorem exec_mod :
    exec (.mod (regByte rA) (regByte rB)) s =
      .next ((if s.getReg rB = 0 then s.report (.modByZero s.pc)
        else s.setReg rA (mod8 ((s.getReg rA).toNat % (s.getReg rB).toNat))).advance .mod) := by
  simp [exec, execMod, withRegs, alu, State.applyAlu]

theorem exec_cmp :
    exec (.cmp (regByte rA) (regByte rB)) s =
      .next ((s.setFlags (cmpFlags (s.getReg rA) (s.getReg rB))).advance .cmp) := by
  simp [exec, execCmp, execAlu2, withRegs, alu, State.applyAlu]

theorem exec_and :
    exec (.and (regByte rA) (regByte rB)) s =
      .next ((s.setReg rA (s.getReg rA &&& s.getReg rB)).advance .and) := by
  simp [exec, execAnd, execAlu2, withRegs, alu, State.applyAlu]

theorem exec_or :
    exec (.or (regByte rA) (regByte rB)) s =
      .next ((s.setReg rA (s.getReg rA ||| s.getReg rB)).advance .or) := by
  simp [exec, execOr, execAlu2, withRegs, alu, State.applyAlu]

theorem exec_xor :
    exec (.xor (regByte rA) (regByte rB)) s =
      .next ((s.setReg rA (s.getReg rA ^^^ s.getReg rB)).advance .xor) := by
  simp [exec, execXor, execAlu2, withRegs, alu, State.applyAlu]

theorem exec_shl :
    exec (.shl (regByte rA) (regByte rB)) s =
      .next ((s.setReg rA (mod8 ((s.getReg rA).toNat * 2 ^ (s.getReg rB).toNat))).advance .shl) := by
  simp [exec, execShl, execAlu2, withRegs, alu, State.applyAlu]

theorem exec_shr :
    exec (.shr (regByte rA) (regByte rB)) s =
      .next ((s.setReg rA (mod8 ((s.getReg rA).toNat / 2 ^ (s.getReg rB).toNat))).advance .shr) := by
  simp [exec, execShr, execAlu2, withRegs, alu, State.applyAlu]

/-! ## What an instruction can do -/

/-- The shapes of effect a well-formed instruction can have, its `pc` update left out: nothing, a
register write, a flags write, an output, a report, a push, a pop, or a pop into a register. -/
inductive Effect (i : Instr) (s : State) : State → Prop where
  | nothing : (∃ a, i = .jmp a ∨ i = .jeq a ∨ i = .jne a) → Effect i s s
  | register (r : RegIdx) (v : Byte) :
      i.registerOperands.head? = some (regByte r) →
      i.mnemonic ∉ [Mnemonic.hlt, .ret, .push, .pop, .prn, .call, .jmp, .jeq, .jne, .cmp] →
      Effect i s (s.setReg r v)
  | flags (r q : RegIdx) : i = .cmp (regByte r) (regByte q) →
      Effect i s (s.setFlags (cmpFlags (s.getReg r) (s.getReg q)))
  | output (r : RegIdx) : i = .prn (regByte r) → Effect i s (s.emit (s.getReg r))
  | hazard (r q : RegIdx) : i = .mod (regByte r) (regByte q) → s.getReg q = 0 →
      Effect i s (s.report (.modByZero s.pc))
  | push (v : Byte) : (∃ r, i = .push (regByte r) ∨ i = .call (regByte r)) → Effect i s (s.push v)
  | pop : i = .ret → Effect i s s.pop.2
  | popInto (r : RegIdx) : i = .pop (regByte r) → Effect i s (s.pop.2.setReg r s.pop.1)

/-- What an instruction can do: raise `BadRegister` on its first bad register operand, halt, or have one
of the effects above and then a new `pc`. -/
def CanDo (i : Instr) (s : State) : Prop :=
  (∃ v, i.registerOperands.find? (fun v => decide (8 ≤ v.toNat)) = some v ∧
      exec i s = .next (s.raiseBadRegister v)) ∨
    (i = .hlt ∧ exec i s = .next (s.halt .hlt)) ∨
    i.wellFormed = true ∧ ∃ u pc', Effect i s u ∧ exec i s = .next (u.redirect pc')

/-- An instruction with one register operand is known from its effect on the eight registers. -/
theorem canDo_one {i : Instr} {s : State} {a : Byte}
    {k : RegIdx → Host.Outcome State Fault Refusal} (hi : i.registerOperands = [a])
    (hx : exec i s = withReg a s k)
    (hk : ∀ r, a = regByte r → ∃ u pc', Effect i s u ∧ exec i s = .next (u.redirect pc')) :
    CanDo i s := by
  rcases operand_cases a with ⟨r, ha⟩ | h
  · exact .inr (.inr ⟨by simp [Instr.wellFormed, hi, ha], hk r ha⟩)
  · exact .inl ⟨a, by simp [hi, h], by rw [hx, withReg_bad h]⟩

/-- The same for two register operands. -/
theorem canDo_two {i : Instr} {s : State} {a b : Byte}
    {k : RegIdx → RegIdx → Host.Outcome State Fault Refusal} (hi : i.registerOperands = [a, b])
    (hx : exec i s = withRegs a b s k)
    (hk : ∀ r q, a = regByte r → b = regByte q →
      ∃ u pc', Effect i s u ∧ exec i s = .next (u.redirect pc')) :
    CanDo i s := by
  rcases operand_cases a with ⟨r, ha⟩ | h
  · rcases operand_cases b with ⟨q, hb⟩ | h'
    · exact .inr (.inr ⟨by simp [Instr.wellFormed, hi, ha, hb], hk r q ha hb⟩)
    · exact .inl ⟨b, by simp [hi, ha, h', r.isLt], by simp [hx, withRegs, ha, withReg_bad h']⟩
  · exact .inl ⟨a, by simp [hi, h], by rw [hx, withRegs, withReg_bad h]⟩

/-- Say once what every instruction can do. -/
theorem exec_cases (i : Instr) (s : State) : CanDo i s := by
  cases i with
  | hlt => exact .inr (.inl ⟨rfl, rfl⟩)
  | ret => exact .inr (.inr ⟨rfl, _, _, .pop rfl, exec_ret s⟩)
  | push a =>
    refine canDo_one rfl rfl fun r hr => ?_
    subst hr
    exact ⟨_, _, .push _ ⟨r, .inl rfl⟩, exec_push s r⟩
  | pop a =>
    refine canDo_one rfl rfl fun r hr => ?_
    subst hr
    exact ⟨_, _, .popInto r rfl, exec_pop s r⟩
  | prn a =>
    refine canDo_one rfl rfl fun r hr => ?_
    subst hr
    exact ⟨_, _, .output r rfl, exec_prn s r⟩
  | call a =>
    refine canDo_one rfl rfl fun r hr => ?_
    subst hr
    exact ⟨_, _, .push _ ⟨r, .inr rfl⟩, exec_call s r⟩
  | jmp a =>
    refine canDo_one rfl rfl fun r hr => ?_
    subst hr
    exact ⟨_, _, .nothing ⟨_, .inl rfl⟩, exec_jmp s r⟩
  | jeq a =>
    refine canDo_one rfl rfl fun r hr => ?_
    subst hr
    exact ⟨_, _, .nothing ⟨_, .inr (.inl rfl)⟩, exec_jeq s r⟩
  | jne a =>
    refine canDo_one rfl rfl fun r hr => ?_
    subst hr
    exact ⟨_, _, .nothing ⟨_, .inr (.inr rfl)⟩, exec_jne s r⟩
  | not a =>
    refine canDo_one rfl rfl fun r hr => ?_
    subst hr
    exact ⟨_, _, .register r _ rfl (by simp [Instr.mnemonic]), exec_not s r⟩
  | ldi a imm =>
    refine canDo_one rfl rfl fun r hr => ?_
    subst hr
    exact ⟨_, _, .register r _ rfl (by simp [Instr.mnemonic]), exec_ldi s r imm⟩
  | mod a b =>
    refine canDo_two rfl rfl fun r q hr hq => ?_
    subst hr hq
    by_cases hz : s.getReg q = 0
    · exact ⟨_, _, .hazard r q rfl hz, by rw [exec_mod, if_pos hz]; rfl⟩
    · exact ⟨_, _, .register r _ rfl (by simp [Instr.mnemonic]), by rw [exec_mod, if_neg hz]; rfl⟩
  | cmp a b =>
    refine canDo_two rfl rfl fun r q hr hq => ?_
    subst hr hq
    exact ⟨_, _, .flags r q rfl, exec_cmp s r q⟩
  | add a b =>
    refine canDo_two rfl rfl fun r q hr hq => ?_
    subst hr hq
    exact ⟨_, _, .register r _ rfl (by simp [Instr.mnemonic]), exec_add s r q⟩
  | mul a b =>
    refine canDo_two rfl rfl fun r q hr hq => ?_
    subst hr hq
    exact ⟨_, _, .register r _ rfl (by simp [Instr.mnemonic]), exec_mul s r q⟩
  | and a b =>
    refine canDo_two rfl rfl fun r q hr hq => ?_
    subst hr hq
    exact ⟨_, _, .register r _ rfl (by simp [Instr.mnemonic]), exec_and s r q⟩
  | or a b =>
    refine canDo_two rfl rfl fun r q hr hq => ?_
    subst hr hq
    exact ⟨_, _, .register r _ rfl (by simp [Instr.mnemonic]), exec_or s r q⟩
  | xor a b =>
    refine canDo_two rfl rfl fun r q hr hq => ?_
    subst hr hq
    exact ⟨_, _, .register r _ rfl (by simp [Instr.mnemonic]), exec_xor s r q⟩
  | shl a b =>
    refine canDo_two rfl rfl fun r q hr hq => ?_
    subst hr hq
    exact ⟨_, _, .register r _ rfl (by simp [Instr.mnemonic]), exec_shl s r q⟩
  | shr a b =>
    refine canDo_two rfl rfl fun r q hr hq => ?_
    subst hr hq
    exact ⟨_, _, .register r _ rfl (by simp [Instr.mnemonic]), exec_shr s r q⟩

/-- No instruction stops: each answers a next state on every operand. -/
theorem exec_isNext (i : Instr) (s : State) : ∃ t, exec i s = .next t := by
  rcases exec_cases i s with ⟨_, _, h⟩ | ⟨_, h⟩ | ⟨_, _, _, _, h⟩ <;> exact ⟨_, h⟩

/-- `exec_cases` for a known next state. -/
theorem exec_next {i : Instr} {s t : State} (h : exec i s = .next t) :
    (∃ v, i.registerOperands.find? (fun v => decide (8 ≤ v.toNat)) = some v ∧
        t = s.raiseBadRegister v) ∨
      (i = .hlt ∧ t = s.halt .hlt) ∨
      i.wellFormed = true ∧ ∃ u pc', Effect i s u ∧ t = u.redirect pc' := by
  rcases exec_cases i s with ⟨v, hv, e⟩ | ⟨hi, e⟩ | ⟨hw, u, pc', hu, e⟩ <;> rw [h] at e <;> cases e
  · exact .inl ⟨v, hv, rfl⟩
  · exact .inr (.inl ⟨hi, rfl⟩)
  · exact .inr (.inr ⟨hw, u, pc', hu, rfl⟩)

end Sys2Proof.Machine
end

