-- ==== Sys2Proof/Laws/Step.lean ====
section
/-! SUPPORT. The cycle and the step: once, everything a step can do. -/

namespace Sys2Proof.Machine

/-- A step of a core that performs cycles is its cycle. -/
theorem step_of_executing {s : State} (h : s.executing) : step s = cycle s := by
  simp [step, State.stopped_eq_none.mpr h]

/-- Only a core that performs cycles has a next state (spec/40_execution_loop.md R80, R92). -/
theorem executing_of_step {s t : State} (h : step s = .next t) : s.executing := by
  unfold step at h
  split at h
  · cases h
  · next hs => exact State.stopped_eq_none.mp hs

/-- The operand bytes a cycle fetches are as many as the opcode calls for. -/
theorem length_operands (s : State) (ir : Byte) :
    ((List.range (operandCount ir)).map fun k => s.readByte (mod8 (s.pc.toNat + (k + 1)))).length =
      operandCount ir := by simp

theorem cycle_of_undefined {s : State} (h : s.opcodes.mnemonicOf (s.readByte s.pc) = none) :
    cycle s = .next (s.decodeError (s.readByte s.pc)) := by
  simp [cycle, State.fetch_eq, decode_undefined _ h]

theorem cycle_of_decode {s : State} {i : Instr} {rest : List Byte}
    (h : decode s.opcodes s.fetch = .ok (i, rest)) : cycle s = exec i s := by
  simp [cycle, h]

/-- Everything a cycle can do when the map meets spec/30_encoding.md R67: the decode error, or the
decoded instruction. -/
theorem cycle_cases {s : State} (hm : s.opcodes.Ok) :
    (s.opcodes.mnemonicOf (s.readByte s.pc) = none ∧
        cycle s = .next (s.decodeError (s.readByte s.pc))) ∨
      ∃ i, s.opcodes.mnemonicOf (s.readByte s.pc) = some i.mnemonic ∧
        s.opcodes.byteOf i.mnemonic = s.readByte s.pc ∧
        decode s.opcodes s.fetch = .ok (i, []) ∧ cycle s = exec i s := by
  rcases hm.decode_cases (ir := s.readByte s.pc) (le_of_eq (length_operands s _).symm) with
    ⟨hn, _⟩ | ⟨i, hi, hb, _, hd⟩
  · exact .inl ⟨hn, cycle_of_undefined hn⟩
  · rw [List.drop_of_length_le (by simp)] at hd
    exact .inr ⟨i, hi, hb, hd, cycle_of_decode hd⟩

/-- Everything a next state of a step can be, whatever the map. -/
theorem step_next {s t : State} (h : step s = .next t) :
    s.executing ∧
      ((s.opcodes.mnemonicOf (s.readByte s.pc) = none ∧ t = s.decodeError (s.readByte s.pc)) ∨
        ∃ i, s.opcodes.mnemonicOf (s.readByte s.pc) = some i.mnemonic ∧
          (∃ rest, decode s.opcodes s.fetch = .ok (i, rest)) ∧ exec i s = .next t) := by
  have he := executing_of_step h
  refine ⟨he, ?_⟩
  rw [step_of_executing he] at h
  cases hn : s.opcodes.mnemonicOf (s.readByte s.pc) with
  | none =>
    rw [cycle_of_undefined hn] at h
    exact .inl ⟨rfl, by cases h; rfl⟩
  | some op =>
    refine .inr ?_
    unfold cycle at h
    split at h
    · next i rest hd =>
      obtain ⟨ir, tail, hf, hm, _⟩ := decode_ok_inv hd
      rw [State.fetch_eq] at hf
      obtain ⟨rfl, -⟩ := List.cons.inj hf
      exact ⟨i, by rw [← hn, hm], ⟨rest, hd⟩, h⟩
    · next ir hd =>
      rw [State.fetch_eq] at hd
      cases ha : assemble op (((List.range (operandCount (s.readByte s.pc))).map
          fun k => s.readByte (mod8 (s.pc.toNat + (k + 1)))).take (operandCount (s.readByte s.pc))) with
      | none => rw [decode_operandMissing hn (by simp) ha] at hd; cases hd
      | some j => rw [decode_defined hn (by simp) ha] at hd; cases hd
    · cases h
    · cases h

end Sys2Proof.Machine
end

