-- ==== Sys2Proof/Tests/Slice0.lean ====
section
/-! SUPPORT. The model's own tests. Expected values are the spec's: its examples, its vectors
(spec/95_test_vectors.md, V<n>), or a hand calculation from the rule named. `witness_<Name>` shows the
hypotheses of the obligation `<Name>` met together by a concrete state and operands. -/

namespace Sys2Proof.Machine.Tests

/-! ## Helpers -/

/-- The reset state with flags 0, and any fields a test sets on it. -/
def base : State := State.resetWith defaultOpcodes 0

/-- `base` with R0 and R1 set. -/
def with01 (x y : Byte) : State := (base.setReg 0 x).setReg 1 y

/-- What a test reads of the next state; `none` when there is none. -/
def after {α : Type} (o : Host.Outcome State Fault Refusal) (f : State → α) : Option α :=
  match o with
  | .next t => some (f t)
  | .fault _ => none
  | .refused _ => none

/-- `base` with bytes from an address on, and `pc` there. -/
def placed (a : Byte) (bs : List Byte) : State := (base.storeBytes a bs).redirect a

/-! ## Well-formedness: each check refuses an ill-formed term -/

theorem test_wellFormed_operand_A :
    [Instr.push 8, .pop 8, .prn 8, .call 8, .jmp 8, .jeq 8, .jne 8, .not 255, .ldi 12 5,
      .add 8 0, .mul 8 0, .mod 9 1, .cmp 8 0, .and 8 0, .or 8 0, .xor 8 0, .shl 8 0,
      .shr 8 0].all (fun i => !i.wellFormed) = true := by decide

theorem test_wellFormed_operand_B :
    [Instr.add 0 16, .mul 0 8, .mod 0 8, .cmp 0 8, .and 0 8, .or 0 8, .xor 0 8, .shl 0 8,
      .shr 0 8].all (fun i => !i.wellFormed) = true := by decide

theorem test_wellFormed_accepts :
    [Instr.hlt, .ret, .push 7, .ldi 7 255, .add 7 7].all Instr.wellFormed = true := by decide

/-! ## The constraints on an opcode map (spec/30_encoding.md R67): each refuses a map -/

theorem test_map_source_byte : ¬ OpcodeMap.Ok { defaultOpcodes with prn := 0x48 } := by decide
theorem test_map_distinct : ¬ OpcodeMap.Ok { defaultOpcodes with jeq := 0x54 } := by decide
theorem test_map_not_FF : ¬ OpcodeMap.Ok { defaultOpcodes with add := 0xFF } := by decide
theorem test_map_operands : ¬ OpcodeMap.Ok { defaultOpcodes with add := 0x60 } := by decide
theorem test_map_longer_call : OpcodeMap.Ok { defaultOpcodes with call := 0xB0 } := by decide

/-! ## Decoding: one word of each instruction, written out from spec/30_encoding.md R66 -/

theorem test_decode_hlt :
    decode defaultOpcodes [(0b00000001 : Byte)] = .ok (.hlt, []) := by rfl
theorem test_decode_ret :
    decode defaultOpcodes [(0b00010001 : Byte)] = .ok (.ret, []) := by rfl
theorem test_decode_push :
    decode defaultOpcodes [(0b01000101 : Byte), 0b00000011] = .ok (.push 3, []) := by rfl
theorem test_decode_pop :
    decode defaultOpcodes [(0b01000110 : Byte), 0b00000100] = .ok (.pop 4, []) := by rfl
theorem test_decode_prn :
    decode defaultOpcodes [(0b01000111 : Byte), 0b00000101] = .ok (.prn 5, []) := by rfl
theorem test_decode_call :
    decode defaultOpcodes [(0b01010000 : Byte), 0b00000001] = .ok (.call 1, []) := by rfl
theorem test_decode_jmp :
    decode defaultOpcodes [(0b01010100 : Byte), 0b00000010] = .ok (.jmp 2, []) := by rfl
theorem test_decode_jeq :
    decode defaultOpcodes [(0b01010101 : Byte), 0b00000011] = .ok (.jeq 3, []) := by rfl
theorem test_decode_jne :
    decode defaultOpcodes [(0b01010110 : Byte), 0b00000110] = .ok (.jne 6, []) := by rfl
theorem test_decode_not :
    decode defaultOpcodes [(0b01101001 : Byte), 0b00000111] = .ok (.not 7, []) := by rfl
theorem test_decode_ldi :
    decode defaultOpcodes [(0b10000010 : Byte), 0b00000000, 0b00000101] = .ok (.ldi 0 5, []) := by rfl
theorem test_decode_add :
    decode defaultOpcodes [(0b10100000 : Byte), 0b00000000, 0b00000001] = .ok (.add 0 1, []) := by rfl
theorem test_decode_mul :
    decode defaultOpcodes [(0b10100010 : Byte), 0b00000001, 0b00000010] = .ok (.mul 1 2, []) := by rfl
theorem test_decode_mod :
    decode defaultOpcodes [(0b10100100 : Byte), 0b00000010, 0b00000011] = .ok (.mod 2 3, []) := by rfl
theorem test_decode_cmp :
    decode defaultOpcodes [(0b10100111 : Byte), 0b00000011, 0b00000100] = .ok (.cmp 3 4, []) := by rfl
theorem test_decode_and :
    decode defaultOpcodes [(0b10101000 : Byte), 0b00000100, 0b00000101] = .ok (.and 4 5, []) := by rfl
theorem test_decode_or :
    decode defaultOpcodes [(0b10101010 : Byte), 0b00000101, 0b00000110] = .ok (.or 5 6, []) := by rfl
theorem test_decode_xor :
    decode defaultOpcodes [(0b10101011 : Byte), 0b00000110, 0b00000111] = .ok (.xor 6 7, []) := by rfl
theorem test_decode_shl :
    decode defaultOpcodes [(0b10101100 : Byte), 0b00000111, 0b00000000] = .ok (.shl 7 0, []) := by rfl
theorem test_decode_shr :
    decode defaultOpcodes [(0b10101101 : Byte), 0b00000000, 0b00000110] = .ok (.shr 0 6, []) := by rfl

/-- V6: bytes that are no instruction's, the LS-8 ones among them. -/
theorem test_decode_undefined :
    [0x00, 0x13, 0x48, 0x52, 0x57, 0x65, 0x83, 0xA1, 0xA3, 0xC0, 0xFF].all
      (fun n => (defaultOpcodes.mnemonicOf (mod8 n)).isNone) = true := by decide

/-- V1 to V4. -/
theorem test_opLen :
    [0x00, 0x3F, 0x40, 0x7F, 0x80, 0xBF, 0xC0, 0xFF].map (fun n => opLen (mod8 n)) =
      [1, 1, 2, 2, 3, 3, 3, 3] := by decide

/-- spec/30_encoding.md R67, last sentence: a second operand byte of NOT is fetched and ignored. -/
theorem test_decode_unused_operand :
    decode { defaultOpcodes with not := 0xB1 } [0xB1, 0x02, 0x99, 0x01] = .ok (.not 2, [0x01]) := by
  rfl

theorem test_decodeTableWord : decodeTableWord 24 0x050082 = some (.ldi 0 5) := by decide

/-! ## Stack: V11, V12, V14, V15 -/

theorem test_push_r7_old_value :
    after (exec (.push 7) base) (fun t => (t.getReg 7, t.readByte 0xF3, t.pc)) =
      some (0xF3, 0xF4, 2) := by decide
theorem test_push_wraps :
    after (exec (.push 0) ((base.setReg 0 9).setReg 7 0)) (fun t => (t.getReg 7, t.readByte 0xFF)) =
      some (0xFF, 9) := by decide
theorem test_pop_r7_keeps_byte :
    after (exec (.pop 7) ((base.setReg 7 0xF3).writeByte 0xF3 0x10))
      (fun t => (t.getReg 7, t.readByte 0xF3)) = some (0x10, 0) := by decide
theorem test_pop_wraps :
    after (exec (.pop 0) ((base.setReg 7 0xFF).writeByte 0xFF 9))
      (fun t => (t.getReg 0, t.getReg 7, t.mem)) = some (9, 0, []) := by decide

/-! ## ALU: V20 to V48 -/

theorem test_add_wraps :
    after (exec (.add 0 1) (with01 200 100)) (fun t => (t.getReg 0, t.getReg 1, t.pc)) =
      some (44, 100, 3) := by decide
theorem test_add_same_register :
    after (exec (.add 0 0) (with01 128 1)) (·.getReg 0) = some 0 := by decide
theorem test_mul_low_byte :
    after (exec (.mul 0 1) (with01 3 100)) (·.getReg 0) = some 44 := by decide
theorem test_mul_square :
    after (exec (.mul 0 1) (with01 255 255)) (·.getReg 0) = some 1 := by decide
theorem test_mod_remainder :
    after (exec (.mod 0 1) (with01 17 5)) (fun t => (t.getReg 0, t.diag)) = some (2, []) := by decide
theorem test_mod_zero_divisor :
    after (exec (.mod 0 1) ((with01 17 0).redirect 6))
      (fun t => (t.getReg 0, t.getReg 1, t.diag, t.pc, t.run)) =
      some (17, 0, [.modByZero 6], 9, .running) := by decide
theorem test_and : after (exec (.and 0 1) (with01 0xCC 0xAA)) (·.getReg 0) = some 0x88 := by decide
theorem test_or : after (exec (.or 0 1) (with01 0xCC 0xAA)) (·.getReg 0) = some 0xEE := by decide
theorem test_xor : after (exec (.xor 0 1) (with01 0xCC 0xAA)) (·.getReg 0) = some 0x66 := by decide
theorem test_not :
    after (exec (.not 2) (base.setReg 2 0x0F)) (fun t => (t.getReg 2, t.pc)) = some (0xF0, 2) := by
  decide
theorem test_shl_drops_high_bits :
    after (exec (.shl 0 1) (with01 0x81 1)) (·.getReg 0) = some 0x02 := by decide
theorem test_shl_by_255 :
    after (exec (.shl 0 1) (with01 0xFF 255)) (·.getReg 0) = some 0 := by decide
theorem test_shr_no_sign :
    after (exec (.shr 0 1) (with01 0x80 7)) (·.getReg 0) = some 1 := by decide
theorem test_shr_by_8 :
    after (exec (.shr 0 1) (with01 0x80 8)) (·.getReg 0) = some 0 := by decide
theorem test_cmp_unsigned :
    [(0, 255), (255, 0), (7, 7)].map (fun p : Byte × Byte =>
      after (exec (.cmp 0 1) (with01 p.1 p.2)) (·.fl)) = [some 0x04, some 0x02, some 0x01] := by
  decide
theorem test_cmp_clears_high_bits :
    after (exec (.cmp 2 2) (base.setFlags 0xFE)) (fun t => (t.fl, t.pc)) = some (0x01, 3) := by decide

/-! ## Load immediate and print: V51, V52, V53 -/

theorem test_ldi_moves_sp :
    after (exec (.ldi 7 0x80) base) (fun t => (t.getReg 7, t.pc)) = some (0x80, 3) := by decide
theorem test_ldi_wraps_around_memory :
    after (step (placed 0xFE [0x82, 3, 255])) (fun t => (t.getReg 3, t.pc)) = some (255, 1) := by
  decide
theorem test_prn_appends :
    after (exec (.prn 5) ((base.setReg 5 255).emit 7)) (fun t => (t.out, t.pc)) =
      some ([7, 255], 2) := by decide

/-! ## Control: V60 to V70 -/

theorem test_call_pushes_next_address :
    after (exec (.call 1) ((base.setReg 1 0x40).redirect 0x10))
      (fun t => (t.readByte 0xF3, t.getReg 7, t.pc)) = some (0x12, 0xF3, 0x40) := by decide
theorem test_call_r7_and_long_call :
    after (exec (.call 7) { base with pc := 0x10, opcodes := { defaultOpcodes with call := 0xB0 } })
      (fun t => (t.readByte 0xF3, t.getReg 7, t.pc)) = some (0x13, 0xF3, 0xF3) := by decide
theorem test_ret :
    after (exec .ret ((base.setReg 7 0xF3).writeByte 0xF3 0x12))
      (fun t => (t.pc, t.readByte 0xF3, t.getReg 7)) = some (0x12, 0, 0xF4) := by decide
theorem test_jmp : after (exec (.jmp 2) (base.setReg 2 0x20)) (·.pc) = some 0x20 := by decide
theorem test_jeq_reads_bit_0 :
    [0x01, 0x02, 0x04, 0xFF, 0xFE].map (fun f : Byte =>
      after (exec (.jeq 3) ((base.setReg 3 0x30).setFlags f)) (·.pc)) =
      [some 0x30, some 2, some 2, some 0x30, some 2] := by decide
theorem test_jne_reads_bit_0 :
    [0x01, 0x02, 0x04].map (fun f : Byte =>
      after (exec (.jne 3) ((base.setReg 3 0x30).setFlags f)) (·.pc)) =
      [some 2, some 0x30, some 0x30] := by decide
theorem test_hlt :
    after (exec .hlt (base.redirect 5)) (fun t => (t.pc, t.run)) = some (5, .halted .hlt) := by decide

/-! ## Conditions: V80, V84, V85 -/

theorem test_undefined_opcode :
    after (step (placed 0x10 [0xFF])) (fun t => (t.pc, t.run, t.diag)) =
      some (0x10, .halted (.badOpcode 0xFF 0x10), [.badOpcode 0xFF 0x10]) := by decide
theorem test_bad_register_B :
    after (step (placed 0 [0xA0, 0x00, 0x10])) (fun t => (t.pc, t.run, t.fault)) =
      some (0, .running, some (.badRegister 0 0x10)) := by decide
theorem test_bad_register_before_zero_divisor :
    after (step (placed 0 [0xA4, 0x09, 0x01])) (fun t => (t.diag, t.fault)) =
      some ([], some (.badRegister 0 9)) := by decide

/-! ## The boundary: S5, and the text of spec/43_load_print.md R133 -/

theorem test_image_of_the_source :
    parseImage [['1','0','0','0','0','0','1','0'], ['0','0','0','0','0','0','0','0'],
      ['0','0','0','0','0','1','0','1',' ','#','5'], [], ['#','1'],
      ['0','1','0','0','0','1','1','1']] = some [0x82, 0x00, 0x05, 0x47] := by decide
theorem test_image_line_too_long :
    parseImage [['1','0','0','0','0','0','1','0','0']] = none := by decide
theorem test_host_text : hostOutput ['|'] [0, 5, 255] = ['0','|','5','|','2','5','5','|'] := by decide

/-! ## Witnesses: the hypotheses of each obligation, met together -/

theorem witness_DecodeIsTotalOverOpcodeBytes : defaultOpcodes.Ok := by decide
theorem witness_DecodeOfEncodeIsIdentity : OpcodeMap.Ok { defaultOpcodes with not := 0xB1 } := by
  decide
theorem witness_EncodeOfDecodeIsIdentityUnderDefaultMap :
    decode defaultOpcodes [0x45, 0x03, 0x01] = .ok (.push 3, [0x01]) := by rfl
theorem witness_LoadPlacesImageFromAddressZero :
    ([0x82, 0x00, 0x05] : List Byte).length ≤ 256 := by decide
theorem witness_LaunchOutcomes_loads :
    parseImage [['1'], ['x']] = some [1] ∧ ([1] : List Byte).length ≤ 256 := by decide
theorem witness_LaunchOutcomes_full :
    parseImage (List.replicate 256 ['1']) = some (List.replicate 256 1) ∧
      (List.replicate 256 (1 : Byte)).length ≤ 256 := by decide +kernel
theorem witness_LaunchOutcomes_invalid :
    parseImage [['1'], List.replicate 9 '0'] = none ∧ parseImage [List.replicate 8 '0'] = some [0] := by
  decide
theorem witness_LaunchOutcomes_too_long :
    parseImage (List.replicate 257 ['1']) = some (List.replicate 257 1) ∧
      256 < (List.replicate 257 (1 : Byte)).length := by decide +kernel
theorem witness_ImageLinesAreReadInBaseTwo :
    ([true, false, false, false, false, false, true, false] : List Bool).length ≤ 8 ∧
      ([true] : List Bool) ≠ [] ∧
      (∀ c, ([' ', '1'] : List Char).head? = some c → c ≠ '0' ∧ c ≠ '1') ∧
      readLine [' ', '1'] = .skipped ∧ readLine ['1', '0', ' ', '1'] = .byte 2 ∧
      parseImage [['1']] = some [1] :=
  ⟨by decide, by decide, by simp, by decide, by decide, by decide⟩
theorem witness_CanonicalMemoriesWithEqualReadsAreEqual :
    Memory.wf [(0, 0x82), (255, 1)] ∧
      (∀ a : Byte, Memory.read [(0, 0x82), (255, 1)] a.toNat =
        Memory.read (Memory.write [(255, 1)] 0 0x82) a.toNat) ∧
      Memory.wf (Memory.write [(255, 1)] 0 0x82) := by
  have h : Memory.write [(255, 1)] 0 0x82 = [(0, 0x82), (255, 1)] := by decide
  rw [h]
  exact ⟨by decide, fun _ => rfl, by decide⟩

/-- An executing core about to run `MOD R0,R1` at address 0xFE, across the top of memory. -/
def aboutToMod : State := placed 0xFE [0xA4, 0x00, 0x01]

theorem witness_StepRunsDecodedInstruction :
    aboutToMod.executing ∧ decode aboutToMod.opcodes [aboutToMod.readByte aboutToMod.pc,
      aboutToMod.readByte (aboutToMod.pc + 1), aboutToMod.readByte (aboutToMod.pc + 2)] =
      .ok (.mod 0 1, []) := ⟨⟨rfl, rfl⟩, rfl⟩
theorem witness_StepRunsEncodedInstruction :
    aboutToMod.opcodes.Ok ∧ aboutToMod.executing ∧
      ∀ (k : Nat) (h : k < (encode aboutToMod.opcodes (.mod 0 1)).length),
        aboutToMod.readByte (mod8 (aboutToMod.pc.toNat + k)) =
          (encode aboutToMod.opcodes (.mod 0 1))[k] := by
  refine ⟨by decide, ⟨rfl, rfl⟩, fun k h => ?_⟩
  have h3 : k < 3 := h
  match k, h3 with
  | 0, _ => rfl
  | 1, _ => rfl
  | 2, _ => rfl
theorem witness_UndefinedOpcodeHaltsAndReports :
    (placed 0x10 [0xFF]).executing ∧ ∀ op, (placed 0x10 [0xFF]).opcodes.byteOf op ≠
      (placed 0x10 [0xFF]).readByte (placed 0x10 [0xFF]).pc :=
  ⟨⟨rfl, rfl⟩, fun op => by cases op <;> decide⟩
theorem witness_StoppedCoreHasNoStep_halted :
    (base.halt .hlt).run = .halted .hlt ∧ (base.halt .hlt).fault = none := ⟨rfl, rfl⟩
theorem witness_StoppedCoreHasNoStep_faulted :
    (base.raiseBadRegister 8).fault = some (.badRegister 0 8) := rfl
theorem witness_ExecutingCoreAlwaysSteps : base.opcodes.Ok ∧ base.executing :=
  ⟨by decide, rfl, rfl⟩
theorem witness_StepKeepsMachineInvariant :
    base.Inv ∧ step base = .next (base.decodeError 0) :=
  ⟨⟨by decide, by decide, trivial, trivial⟩, rfl⟩
theorem witness_ResetMeetsMachineInvariant : OpcodeMap.Ok { defaultOpcodes with call := 0xB0 } := by
  decide
theorem witness_LaunchMeetsMachineInvariant :
    defaultOpcodes.Ok ∧ launch ⟨defaultOpcodes, 0, false, []⟩ (.lines [['1']]) =
      .ok (base.load [1]) := ⟨by decide, rfl⟩
theorem witness_TracesAreNeverRead :
    after (step aboutToMod) (·.diag) = some [.modByZero 0xFE] := by decide
theorem witness_OnlyEqualBitIsRead :
    (0xFE : Byte).getLsbD 0 = aboutToMod.fl.getLsbD 0 ∧ after (step aboutToMod) (·.pc) = some 1 := by
  decide
theorem witness_OnlyCmpWritesFlags :
    exec .hlt base = .next (base.halt .hlt) ∧ Instr.hlt.mnemonic ≠ .cmp ∧
      step base = .next (base.decodeError 0) ∧
      base.opcodes.mnemonicOf (base.readByte base.pc) ≠ some .cmp :=
  ⟨rfl, by decide, rfl, by decide⟩
theorem witness_OnlyStackInstructionsWriteMemory_none :
    exec .hlt base = .next (base.halt .hlt) ∧
      Instr.hlt.mnemonic ∉ [Mnemonic.push, .call, .pop, .ret] := ⟨rfl, by decide⟩
theorem witness_OnlyStackInstructionsWriteMemory_push :
    exec (.push 0) base = .next ((base.push (base.getReg 0)).advance .push) ∧
      (Instr.push 0).mnemonic ∈ [Mnemonic.push, .call] ∧ Instr.push 0 = .push (regByte 0) :=
  ⟨rfl, by decide, rfl⟩
theorem witness_OnlyStackInstructionsWriteMemory_call :
    exec (.call 7) base = .next ((base.push 2).redirect 0xF3) ∧ Instr.call 7 = .call (regByte 7) :=
  ⟨rfl, rfl⟩
theorem witness_OnlyStackInstructionsWriteMemory_bad :
    exec (.push 8) base = .next (base.raiseBadRegister 8) ∧ (Instr.push 8).wellFormed = false :=
  ⟨rfl, by decide⟩
theorem witness_OnlyStackInstructionsWriteMemory_pop :
    exec .ret base = .next (base.pop.2.redirect base.pop.1) ∧
      Instr.ret.mnemonic ∈ [Mnemonic.pop, .ret] ∧ Instr.ret.wellFormed = true :=
  ⟨rfl, by decide, by decide⟩
theorem witness_OnlyPrnExtendsOutput :
    exec (.prn 7) base = .next ((base.emit (base.getReg 7)).advance .prn) := rfl
theorem witness_RegisterChangesAreNamed :
    exec (.ldi 7 9) base = .next ((base.setReg 7 9).advance .ldi) ∧
      ((base.setReg 7 9).advance .ldi).getReg 7 ≠ base.getReg 7 := ⟨rfl, by decide⟩
theorem witness_BadRegisterOperandRecordsFault :
    (Instr.add 7 8).registerOperands.find? (fun w => decide (8 ≤ w.toNat)) = some 8 ∧
      (Instr.add 9 8).registerOperands.find? (fun w => decide (8 ≤ w.toNat)) = some 9 := by decide
theorem witness_AluRegisterResults :
    (with01 17 5).getReg 1 ≠ 0 ∧ (with01 17 0).getReg 1 = 0 ∧
      8 ≤ ((with01 1 8).getReg 1).toNat := by decide
theorem witness_AluRegisterFrame :
    Instr.mod (regByte 0) (regByte 1) = .mod (regByte 0) (regByte 1) ∧ (with01 17 5).getReg 1 ≠ 0 :=
  ⟨rfl, by decide⟩
theorem witness_ModByZeroIsReportedAndSkipped : (with01 17 0).getReg 1 = 0 := by decide
theorem witness_ModByZeroIsReportedAndSkipped_report :
    exec (.mod 0 1) (with01 17 0) = .next (((with01 17 0).report (.modByZero 0)).advance .mod) ∧
      (((with01 17 0).report (.modByZero 0)).advance .mod).diag ≠ (with01 17 0).diag :=
  ⟨rfl, by decide⟩
theorem witness_PopLoadsAndZeroes : (6 : RegIdx) ≠ sp := by decide
theorem witness_CallThenRetReturns :
    exec (.call (regByte 1)) base = .next ((base.push 2).redirect 0) ∧
      ((base.push 2).redirect 0x40).getReg sp = ((base.push 2).redirect 0).getReg sp ∧
      ((base.push 2).redirect 0x40).readByte (((base.push 2).redirect 0x40).getReg sp) =
        ((base.push 2).redirect 0).readByte (((base.push 2).redirect 0).getReg sp) :=
  ⟨rfl, rfl, rfl⟩
theorem witness_StepAdvancesByFetchedLength_mod :
    aboutToMod.executing ∧ decode aboutToMod.opcodes [aboutToMod.readByte aboutToMod.pc,
      aboutToMod.readByte (aboutToMod.pc + 1), aboutToMod.readByte (aboutToMod.pc + 2)] =
      .ok (.mod 0 1, []) ∧ (Instr.mod 0 1).wellFormed = true ∧
      (Instr.mod 0 1).mnemonic ∉ [Mnemonic.call, .ret, .jmp, .hlt] ∧
      (Instr.mod 0 1).mnemonic ≠ .jeq ∧ (Instr.mod 0 1).mnemonic ≠ .jne :=
  ⟨⟨rfl, rfl⟩, rfl, by decide, by decide, by decide, by decide⟩
theorem witness_StepAdvancesByFetchedLength_jeq :
    (placed 0xFF [0x55, 0x07]).executing ∧
      decode defaultOpcodes [(placed 0xFF [0x55, 0x07]).readByte 0xFF,
        (placed 0xFF [0x55, 0x07]).readByte 0, (placed 0xFF [0x55, 0x07]).readByte 1] =
        .ok (.jeq 7, [0]) ∧
      (placed 0xFF [0x55, 0x07]).fl.getLsbD 0 = false := ⟨⟨rfl, rfl⟩, rfl, by decide⟩
theorem witness_StepAdvancesByFetchedLength_jne :
    ((placed 0xFF [0x56, 0x07]).setFlags 1).executing ∧
      decode defaultOpcodes [(placed 0xFF [0x56, 0x07]).readByte 0xFF,
        (placed 0xFF [0x56, 0x07]).readByte 0, (placed 0xFF [0x56, 0x07]).readByte 1] =
        .ok (.jne 7, [0]) ∧
      ((placed 0xFF [0x56, 0x07]).setFlags 1).fl.getLsbD 0 = true := ⟨⟨rfl, rfl⟩, rfl, by decide⟩
/-- `PUSH R0` of 0x45 on the opcode byte of the next instruction, and of 0x05 on its operand byte A. -/
theorem witness_StackWriteIsSeenByNextFetch_push :
    after (exec (.push (regByte 0)) ((base.setReg 0 0x45).setReg 7 3))
      (fun t => (t.fetch, t.pc)) = some ([0x45, 0], 2) ∧
    after (exec (.push (regByte 0)) (((base.setReg 0 0x05).setReg 7 4).writeByte 2 0x45))
      (fun t => (t.fetch, t.pc)) = some ([0x45, 0x05], 2) := by decide
theorem witness_StackWriteIsSeenByNextFetch_call :
    after (exec (.call (regByte 7)) (base.redirect 0x45)) (fun t => (t.fetch, t.pc)) =
      some ([0x47, 0], 0xF3) ∧
    after (exec (.call (regByte 1)) ((base.setReg 1 0xF2).writeByte 0xF2 0x45))
      (fun t => (t.fetch, t.pc)) = some ([0x45, 2], 0xF2) := by decide
theorem witness_StackWriteIsSeenByNextFetch_pop :
    after (exec (.pop (regByte 0)) ((base.setReg 7 2).writeByte 2 0x45)) (fun t => (t.fetch, t.pc)) =
      some ([0], 2) ∧
    after (exec (.pop (regByte 0)) (((base.setReg 7 4).writeByte 2 0xA0).writeByte 4 5))
      (fun t => (t.fetch, t.pc)) = some ([0xA0, 0, 0], 2) := by decide
theorem witness_StackWriteIsSeenByNextFetch_ret :
    after (exec .ret (base.writeByte 0xF4 0xF4)) (fun t => (t.fetch, t.pc)) = some ([0], 0xF4) ∧
    after (exec .ret ((base.writeByte 0xF4 0xF3).writeByte 0xF3 0x45)) (fun t => (t.fetch, t.pc)) =
      some ([0x45, 0], 0xF3) := by decide

end Sys2Proof.Machine.Tests
end

section
/-! PROOFS. The flags register under an instruction's effect, an instruction and a step
(spec/10_state.md R28). -/

namespace Sys2Proof.Machine

/-- Of the shapes of effect an instruction can have, only the flags write is CMP's. -/
theorem Effect.fl_eq {i : Instr} {s u : State} (h : Effect i s u) (hi : i.mnemonic ≠ .cmp) :
    u.fl = s.fl := by
  cases h with
  | nothing => rfl
  | register => simp
  | flags r q hcmp => exact absurd (congrArg Instr.mnemonic hcmp) hi
  | output => simp
  | hazard => simp
  | push => simp
  | pop => simp
  | popInto => simp

theorem exec_fl_eq {i : Instr} {s t : State} (h : exec i s = .next t) (hi : i.mnemonic ≠ .cmp) :
    t.fl = s.fl := by
  obtain ⟨v, -, rfl⟩ | ⟨-, rfl⟩ | ⟨-, u, pc', hu, rfl⟩ := exec_next h
  · exact State.raiseBadRegister_fl s v
  · exact State.halt_fl s .hlt
  · exact hu.fl_eq hi

@[simp] theorem State.decodeError_fl (s : State) (ir : Byte) : (s.decodeError ir).fl = s.fl := rfl

/-- A step runs the instruction the opcode byte names, so it writes the flags only when that is CMP. -/
theorem step_fl_eq {s t : State} (h : step s = .next t)
    (hop : s.opcodes.mnemonicOf (s.readByte s.pc) ≠ some .cmp) : t.fl = s.fl := by
  obtain ⟨-, ⟨-, rfl⟩ | ⟨i, hi, -, hx⟩⟩ := step_next h
  · exact State.decodeError_fl s _
  · exact exec_fl_eq hx fun hcmp => hop (by rw [hi, hcmp])

/-- Settles O23, from what an instruction and a step can do. -/
theorem onlyCmpWritesFlags : Obligations.OnlyCmpWritesFlags :=
  ⟨fun _ _ _ => exec_fl_eq, fun _ _ => step_fl_eq⟩

end Sys2Proof.Machine
end

section
/-! PROOFS. Memory at reset (spec/20_memory.md R43). -/

namespace Sys2Proof.Machine

@[simp] theorem Memory.read_nil (a : Nat) : Memory.read [] a = 0 := rfl

/-- R43 for every opcode map and every draw of the flags: no cell is listed at reset, so each reads
as an unlisted one. -/
@[simp] theorem State.readByte_resetWith (m : OpcodeMap) (flags0 a : Byte) :
    (State.resetWith m flags0).readByte a = 0 := by
  rw [State.readByte, State.resetWith_mem, Memory.read_nil]

/-- Settles O9: `State.reset` is the reset with the default opcode map. -/
theorem resetMemoryIsZero : Obligations.ResetMemoryIsZero :=
  State.readByte_resetWith defaultOpcodes Config.flags0

end Sys2Proof.Machine
end

section
/-! PROOFS. Decoding is total over opcode bytes (spec/30_encoding.md R69). -/

namespace Sys2Proof

/-- Three bytes hold the longest instruction, so at least as many follow the opcode byte as it calls
for (spec/30_encoding.md R60). -/
theorem operandCount_le_length_cons_cons (ir a b : Byte) (rest : List Byte) :
    operandCount ir ≤ (a :: b :: rest).length :=
  (operandCount_le_two ir).trans (Nat.le_add_left 2 rest.length)

/-- Settles O1, from everything the decoder can answer on a list that holds the whole instruction. -/
theorem decodeIsTotalOverOpcodeBytes : Obligations.DecodeIsTotalOverOpcodeBytes := by
  intro m hm ir a b rest
  obtain ⟨hnone, herr⟩ | ⟨i, -, hbyte, -, hok⟩ :=
    hm.decode_cases (operandCount_le_length_cons_cons ir a b rest)
  · exact .inr ⟨herr, OpcodeMap.mnemonicOf_eq_none.mp hnone⟩
  · exact .inl ⟨i, _, hok, hbyte⟩

end Sys2Proof
end

section
/-! PROOFS. The stack's `Pop` (spec/41_stack.md R101). -/

namespace Sys2Proof.Machine

theorem State.sameMemoryExcept_pop (s : State) : SameMemoryExcept (s.getReg sp) s s.pop.2 :=
  fun x hx => by rw [State.readByte_pop, if_neg hx]

theorem State.sameRegsExcept_pop (s : State) : SameRegsExcept [sp] s s.pop.2 :=
  fun r hr => by rw [State.getReg_pop, if_neg (List.ne_of_not_mem_cons hr)]

theorem State.readByte_pop_sp (s : State) : s.pop.2.readByte (s.getReg sp) = 0 := by
  rw [State.readByte_pop, if_pos rfl]

theorem State.toNat_getReg_pop_sp (s : State) :
    (s.pop.2.getReg sp).toNat = ((s.getReg sp).toNat + 1) % 256 := by
  rw [State.getReg_pop, if_pos rfl]
  exact BitVec.toNat_add (s.getReg sp) 1

/-- Settles O35, from what each cell and each register reads after a pop. -/
theorem popReadsZeroesIncrements : Obligations.PopReadsZeroesIncrements := fun s =>
  ⟨s.pop_fst, s.readByte_pop_sp, s.toNat_getReg_pop_sp, s.sameMemoryExcept_pop,
    s.sameRegsExcept_pop⟩

end Sys2Proof.Machine
end

section
/-! PROOFS. The byte arithmetic of the ALU's narrow results (spec/42_alu.md R121). -/

namespace Sys2Proof

theorem toNat_mod8_of_lt {n : Nat} (h : n < 256) : (mod8 n).toNat = n := by
  rw [toNat_mod8, Nat.mod_eq_of_lt h]

/-- A left shift by 8 or more leaves a multiple of 256. -/
theorem mod8_shl_eq_zero (a : Nat) {k : Nat} (h : 8 ≤ k) : mod8 (a * 2 ^ k) = 0 := by
  have hdvd : 2 ^ 8 ∣ a * 2 ^ k := (Nat.pow_dvd_pow 2 h).mul_left a
  apply BitVec.eq_of_toNat_eq
  rw [toNat_mod8]
  exact Nat.mod_eq_zero_of_dvd hdvd

/-- A right shift by 8 or more leaves nothing of a byte. -/
theorem mod8_shr_eq_zero (v : Byte) {k : Nat} (h : 8 ≤ k) : mod8 (v.toNat / 2 ^ k) = 0 := by
  have hlt : v.toNat < 2 ^ k := v.isLt.trans_le (Nat.pow_le_pow_right two_pos h)
  rw [Nat.div_eq_of_lt hlt]
  rfl

end Sys2Proof
end

section
/-! PROOFS. The results of the nine register-writing ALU operations (spec/42_alu.md R121). -/

namespace Sys2Proof.Machine

@[simp] theorem State.getReg_advance (s : State) (op : Mnemonic) (r : RegIdx) :
    (s.advance op).getReg r = s.getReg r := rfl

@[simp] theorem State.getReg_report (s : State) (d : Diag) (r : RegIdx) :
    (s.report d).getReg r = s.getReg r := rfl

section Results

variable (s : State) (rA rB : RegIdx)

/-- ADD's result (spec/42_alu.md R110, R122). -/
theorem exec_add_result : ∃ t, exec (.add (regByte rA) (regByte rB)) s = .next t ∧ t.fl = s.fl ∧
    (t.getReg rA).toNat = ((s.getReg rA).toNat + (s.getReg rB).toNat) % 256 :=
  ⟨_, exec_add s rA rB, by simp, by simp⟩

/-- MUL's result (spec/42_alu.md R111, R122). -/
theorem exec_mul_result : ∃ t, exec (.mul (regByte rA) (regByte rB)) s = .next t ∧ t.fl = s.fl ∧
    (t.getReg rA).toNat = ((s.getReg rA).toNat * (s.getReg rB).toNat) % 256 :=
  ⟨_, exec_mul s rA rB, by simp, by simp⟩

/-- MOD's result with a divisor that is not zero: a remainder is below its divisor, and no greater
than its dividend, so narrowing keeps it (spec/42_alu.md R112). -/
theorem exec_mod_result (h : s.getReg rB ≠ 0) :
    ∃ t, exec (.mod (regByte rA) (regByte rB)) s = .next t ∧ t.fl = s.fl ∧
      (t.getReg rA).toNat = (s.getReg rA).toNat % (s.getReg rB).toNat ∧
      (t.getReg rA).toNat < (s.getReg rB).toNat := by
  have hval : (mod8 ((s.getReg rA).toNat % (s.getReg rB).toNat)).toNat =
      (s.getReg rA).toNat % (s.getReg rB).toNat :=
    toNat_mod8_of_lt ((Nat.mod_le _ _).trans_lt (byte_lt _))
  have hlt : (s.getReg rA).toNat % (s.getReg rB).toNat < (s.getReg rB).toNat :=
    Nat.mod_lt _ (Nat.pos_of_ne_zero fun h0 => h (BitVec.eq_of_toNat_eq h0))
  have hx := exec_mod s rA rB
  rw [if_neg h] at hx
  refine ⟨_, hx, by simp, ?_, ?_⟩ <;> rw [State.getReg_advance, State.getReg_setReg_self, hval]
  exact hlt

/-- MOD by zero leaves register A and reports the hazard (spec/42_alu.md R112). -/
theorem exec_mod_hazard (h : s.getReg rB = 0) :
    ∃ t, exec (.mod (regByte rA) (regByte rB)) s = .next t ∧ t.fl = s.fl ∧
      t.getReg rA = s.getReg rA ∧ t.diag = s.diag ++ [.modByZero s.pc] := by
  have hx := exec_mod s rA rB
  rw [if_pos h] at hx
  exact ⟨_, hx, by simp, by simp, by simp⟩

theorem exec_and_result : ∃ t, exec (.and (regByte rA) (regByte rB)) s = .next t ∧ t.fl = s.fl ∧
    ∀ k, (t.getReg rA).getLsbD k = ((s.getReg rA).getLsbD k && (s.getReg rB).getLsbD k) :=
  ⟨_, exec_and s rA rB, by simp, by simp⟩

theorem exec_or_result : ∃ t, exec (.or (regByte rA) (regByte rB)) s = .next t ∧ t.fl = s.fl ∧
    ∀ k, (t.getReg rA).getLsbD k = ((s.getReg rA).getLsbD k || (s.getReg rB).getLsbD k) :=
  ⟨_, exec_or s rA rB, by simp, by simp⟩

theorem exec_xor_result : ∃ t, exec (.xor (regByte rA) (regByte rB)) s = .next t ∧ t.fl = s.fl ∧
    ∀ k, (t.getReg rA).getLsbD k = ((s.getReg rA).getLsbD k ^^ (s.getReg rB).getLsbD k) :=
  ⟨_, exec_xor s rA rB, by simp, by simp⟩

theorem exec_not_result : ∃ t, exec (.not (regByte rA)) s = .next t ∧ t.fl = s.fl ∧
    (t.getReg rA).toNat = 255 - (s.getReg rA).toNat := by
  have hlt : 255 - (s.getReg rA).toNat < 256 := by omega
  refine ⟨_, exec_not s rA, by simp, ?_⟩
  rw [State.getReg_advance, State.getReg_setReg_self, toNat_mod8_of_lt hlt]

theorem exec_shl_result : ∃ t, exec (.shl (regByte rA) (regByte rB)) s = .next t ∧ t.fl = s.fl ∧
    (t.getReg rA).toNat = ((s.getReg rA).toNat * 2 ^ (s.getReg rB).toNat) % 256 ∧
    (8 ≤ (s.getReg rB).toNat → t.getReg rA = 0) := by
  refine ⟨_, exec_shl s rA rB, by simp, by simp, fun h => ?_⟩
  rw [State.getReg_advance, State.getReg_setReg_self, mod8_shl_eq_zero _ h]

theorem exec_shr_result : ∃ t, exec (.shr (regByte rA) (regByte rB)) s = .next t ∧ t.fl = s.fl ∧
    (t.getReg rA).toNat = (s.getReg rA).toNat / 2 ^ (s.getReg rB).toNat ∧
    (8 ≤ (s.getReg rB).toNat → t.getReg rA = 0) := by
  have hlt : (s.getReg rA).toNat / 2 ^ (s.getReg rB).toNat < 256 :=
    (Nat.div_le_self _ _).trans_lt (byte_lt _)
  refine ⟨_, exec_shr s rA rB, by simp, ?_, fun h => ?_⟩
  · rw [State.getReg_advance, State.getReg_setReg_self, toNat_mod8_of_lt hlt]
  · rw [State.getReg_advance, State.getReg_setReg_self, mod8_shr_eq_zero _ h]

end Results

/-- Settles O28, from the result of each operation. -/
theorem aluRegisterResults : Obligations.AluRegisterResults := fun s rA rB =>
  ⟨exec_add_result s rA rB, exec_mul_result s rA rB, exec_mod_result s rA rB,
    exec_mod_hazard s rA rB, exec_and_result s rA rB, exec_or_result s rA rB,
    exec_xor_result s rA rB, exec_not_result s rA, exec_shl_result s rA rB,
    exec_shr_result s rA rB⟩

end Sys2Proof.Machine
end

section
/-! PROOFS. The three flags CMP writes (spec/42_alu.md R119, R122). -/

namespace Sys2Proof.Machine

/-- One of three flags bytes, each with the order it stands for. -/
theorem cmpFlags_cases (x y : Byte) :
    (x.toNat = y.toNat ∧ cmpFlags x y = flagE) ∨ (y.toNat < x.toNat ∧ cmpFlags x y = flagG) ∨
      (x.toNat < y.toNat ∧ cmpFlags x y = flagL) := by
  unfold cmpFlags
  rcases lt_trichotomy x.toNat y.toNat with h | h | h
  · exact .inr (.inr ⟨h, by rw [if_neg h.ne, if_neg h.asymm]⟩)
  · exact .inl ⟨h, if_pos h⟩
  · exact .inr (.inl ⟨h, by rw [if_neg h.ne', if_pos h]⟩)

/-- The order of the operands decides each of the three bits, and one alone is set
(spec/42_alu.md R122). -/
theorem cmpFlags_bits (x y : Byte) :
    ((cmpFlags x y).getLsbD 0 = true ↔ x.toNat = y.toNat) ∧
      ((cmpFlags x y).getLsbD 1 = true ↔ y.toNat < x.toNat) ∧
      ((cmpFlags x y).getLsbD 2 = true ↔ x.toNat < y.toNat) ∧
      ∃! k : Fin 3, (cmpFlags x y).getLsbD k.val = true := by
  obtain ⟨h, hf⟩ | ⟨h, hf⟩ | ⟨h, hf⟩ := cmpFlags_cases x y <;> rw [hf]
  · exact ⟨iff_of_true rfl h, iff_of_false (by decide) h.not_gt,
      iff_of_false (by decide) h.not_lt, 0, by decide⟩
  · exact ⟨iff_of_false (by decide) h.ne', iff_of_true rfl h,
      iff_of_false (by decide) h.asymm, 1, by decide⟩
  · exact ⟨iff_of_false (by decide) h.ne, iff_of_false (by decide) h.asymm,
      iff_of_true rfl h, 2, by decide⟩

/-- Settles O31: the flags after CMP are `cmpFlags`; ADD and MUL are as in O28. -/
theorem cmpSetsExactlyOneFlag : Obligations.CmpSetsExactlyOneFlag := by
  intro s rA rB
  obtain ⟨ta, ha, -, hsum⟩ := exec_add_result s rA rB
  obtain ⟨tm, hm, -, hprod⟩ := exec_mul_result s rA rB
  refine ⟨⟨_, exec_cmp s rA rB, ?_⟩, ⟨ta, ha, hsum⟩, ⟨tm, hm, hprod⟩⟩
  rw [State.advance_fl, State.setFlags_fl]
  exact cmpFlags_bits _ _

end Sys2Proof.Machine
end

section
/-! PROOFS. The diagnostic trace under an instruction, and MOD by zero (spec/60_exceptions.md R162). -/

namespace Sys2Proof.Machine

theorem exec_mod_of_eq_zero {s : State} {rA rB : RegIdx} (h : s.getReg rB = 0) :
    exec (.mod (regByte rA) (regByte rB)) s =
      .next ((s.report (.modByZero s.pc)).advance .mod) := by
  rw [exec_mod, if_pos h]

/-- Of the shapes of effect an instruction can have, only the hazard extends the diagnostic trace. -/
theorem Effect.diag_eq_or_mod_by_zero {i : Instr} {s u : State} (h : Effect i s u) :
    u.diag = s.diag ∨
      ∃ rA rB : RegIdx, i = .mod (regByte rA) (regByte rB) ∧ s.getReg rB = 0 := by
  cases h with
  | hazard rA rB hi hz => exact .inr ⟨rA, rB, hi, hz⟩
  | nothing => exact .inl rfl
  | register r v => exact .inl (State.setReg_diag s r v)
  | flags r q => exact .inl (State.setFlags_diag s _)
  | output r => exact .inl (State.emit_diag s _)
  | push v => exact .inl (State.push_diag s v)
  | pop => exact .inl (State.pop_snd_diag s)
  | popInto r => exact .inl (State.pop_snd_diag s)

/-- A bad register operand and HLT report nothing; the rest is the instruction's effect. -/
theorem exec_diag_eq_or_mod_by_zero {i : Instr} {s t : State} (h : exec i s = .next t) :
    t.diag = s.diag ∨
      ∃ rA rB : RegIdx, i = .mod (regByte rA) (regByte rB) ∧ s.getReg rB = 0 := by
  obtain ⟨v, -, rfl⟩ | ⟨-, rfl⟩ | ⟨-, u, pc', hu, rfl⟩ := exec_next h
  · exact .inl (State.raiseBadRegister_diag s v)
  · exact .inl (State.halt_diag s .hlt)
  · exact hu.diag_eq_or_mod_by_zero

/-- Settles O30: a MOD by zero is a report and an advance, and only the hazard reports. -/
theorem modByZeroIsReportedAndSkipped : Obligations.ModByZeroIsReportedAndSkipped := by
  constructor
  · intro s rA rB hz
    exact ⟨_, exec_mod_of_eq_zero hz, s.report_diag _, fun r _ => State.getReg_congr rfl r, rfl,
      State.readByte_congr rfl, rfl, ⟨rfl, rfl, rfl⟩, s.nextPc_toNat .mod⟩
  · intro i s t h hne
    exact (exec_diag_eq_or_mod_by_zero h).resolve_left hne

end Sys2Proof.Machine
end

section
/-! PROOFS. Decode and encode agree (spec/30_encoding.md sections 1 and 3). -/

namespace Sys2Proof

theorem Instr.length_operandBytes (i : Instr) :
    i.operandBytes.length = i.mnemonic.operandsUsed := i.assembles.1

theorem Instr.assemble_append (i : Instr) (l : List Byte) :
    assemble i.mnemonic (i.operandBytes ++ l) = some i := i.assembles.2 l

/-- The bytes the encoder writes after the opcode byte fill its length (spec/30_encoding.md R60). -/
theorem length_take_operandBytes_append (i : Instr) (ir : Byte) :
    ((i.operandBytes ++ [0, 0]).take (operandCount ir)).length = operandCount ir := by
  have h := operandCount_le_two ir
  rw [List.length_take_of_le]
  rw [List.length_append]
  exact h.trans (Nat.le_add_left 2 _)

/-- Bytes that begin with the instruction's operand bytes, cut to a length that holds them, assemble
to it. -/
theorem Instr.assemble_take_append (i : Instr) {n : Nat} (h : i.mnemonic.operandsUsed ≤ n)
    (l : List Byte) : assemble i.mnemonic ((i.operandBytes ++ l).take n) = some i := by
  rw [List.take_append, List.take_of_length_le (i.length_operandBytes.trans_le h)]
  exact i.assemble_append _

/-- Settles O6: the opcode byte names the instruction, and the operand bytes the encoder wrote
assemble to it. -/
theorem decodeOfEncodeIsIdentity : Obligations.DecodeOfEncodeIsIdentity := by
  intro m hm i rest
  have hlen := length_take_operandBytes_append i (m.byteOf i.mnemonic)
  have hasm := i.assemble_take_append (hm.operandsUsed_le i.mnemonic) [0, 0]
  have hdec := decode_defined (rest := (i.operandBytes ++ [0, 0]).take
    (operandCount (m.byteOf i.mnemonic)) ++ rest) (hm.mnemonicOf_byteOf i.mnemonic)
    (by rw [List.length_append, hlen]; exact Nat.le_add_right _ _)
    (by rw [List.take_left' hlen]; exact hasm)
  rwa [List.drop_left' hlen] at hdec

/-- Under the default map an instruction uses all its operand bytes (spec/30_encoding.md R66). -/
theorem operandCount_defaultOpcodes (op : Mnemonic) :
    operandCount (defaultOpcodes.byteOf op) = op.operandsUsed := by
  cases op <;> rfl

theorem encode_defaultOpcodes (i : Instr) :
    encode defaultOpcodes i = defaultOpcodes.byteOf i.mnemonic :: i.operandBytes := by
  rw [encode, operandCount_defaultOpcodes, List.take_left' i.length_operandBytes]

/-- Settles O7: the bytes read are the opcode byte, the operand bytes and the rest. -/
theorem encodeOfDecodeIsIdentityUnderDefaultMap :
    Obligations.EncodeOfDecodeIsIdentityUnderDefaultMap := by
  intro bs rest i h
  obtain ⟨ir, tail, rfl, hop, -, -, hops, rfl⟩ := decode_ok_inv h
  obtain rfl := OpcodeMap.byteOf_of_mnemonicOf hop
  rw [encode_defaultOpcodes, operandCount_defaultOpcodes, hops, List.cons_append,
    List.take_append_drop]

/-- Only the bytes within the instruction's length decide what is decoded
(spec/30_encoding.md R62). -/
theorem decode_take {m : OpcodeMap} {ir : Byte} {tail rest : List Byte} {i : Instr}
    (h : decode m (ir :: tail) = .ok (i, rest)) :
    decode m (ir :: tail.take (operandCount ir)) = .ok (i, []) := by
  obtain ⟨_, _, heq, hop, hlen, hused, hops, -⟩ := decode_ok_inv h
  obtain ⟨rfl, rfl⟩ := List.cons.inj heq
  have hl : (tail.take (operandCount ir)).length = operandCount ir := List.length_take_of_le hlen
  have hasm : assemble i.mnemonic (tail.take (operandCount ir)) = some i := by
    have := i.assemble_take_append hused (tail.drop i.mnemonic.operandsUsed)
    rwa [hops, List.take_append_drop] at this
  have hdec := decode_defined hop hl.ge (by rwa [List.take_of_length_le hl.le])
  rwa [List.drop_of_length_le hl.le] at hdec

end Sys2Proof
end

section
/-! PROOFS. The step runs the instruction that stands at `pc` (spec/40_execution_loop.md R81, R84,
R89). -/

namespace Sys2Proof.Machine

/-- The step of an executing core whose fetched bytes decode to an instruction. -/
theorem step_of_decode_fetch {s : State} {i : Instr} {rest : List Byte} (he : s.executing)
    (h : decode s.opcodes s.fetch = .ok (i, rest)) : step s = exec i s := by
  rw [step_of_executing he, cycle_of_decode h]

theorem length_encode (m : OpcodeMap) (i : Instr) :
    (encode m i).length = opLen (m.byteOf i.mnemonic) := by
  rw [encode, List.length_cons, length_take_operandBytes_append, opLen_eq_operandCount_add_one]

/-- A core fetches an instruction's encoding when it stands from `pc` on: the opcode byte stands
there, so the fetch is as long. -/
theorem State.fetch_eq_encode {s : State} {i : Instr}
    (h : ∀ (k : Nat) (hk : k < (encode s.opcodes i).length),
      s.readByte (mod8 (s.pc.toNat + k)) = (encode s.opcodes i)[k]) :
    s.fetch = encode s.opcodes i := by
  have hopcode : s.readByte s.pc = s.opcodes.byteOf i.mnemonic := by
    have h0 := h 0 (Nat.succ_pos _)
    rwa [Nat.add_zero, mod8_toNat] at h0
  refine List.ext_getElem (by rw [State.length_fetch, length_encode, hopcode]) fun k hk hk' => ?_
  rw [State.fetch_getElem, h k hk']

/-- Settles O14: what is fetched is the encoding, which decodes to the instruction. -/
theorem stepRunsEncodedInstruction : Obligations.StepRunsEncodedInstruction := by
  intro s i hm he h
  have hdec := decodeOfEncodeIsIdentity s.opcodes hm i []
  rw [List.append_nil, ← State.fetch_eq_encode h] at hdec
  exact step_of_decode_fetch he hdec

/-- The fetch is the longest instruction's three bytes, cut to the length of the one at `pc`. -/
theorem State.fetch_eq_take (s : State) :
    s.fetch = s.readByte s.pc ::
      [s.readByte (s.pc + 1), s.readByte (s.pc + 2)].take (operandCount (s.readByte s.pc)) := by
  have hn := operandCount_le_two (s.readByte s.pc)
  rw [State.fetch_eq]
  congr 1
  refine List.ext_getElem (by simpa using hn) fun k hk hk' => ?_
  have hk2 : k < 2 := by simp at hk; omega
  rw [List.getElem_map, List.getElem_range, mod8_add, List.getElem_take]
  match k, hk2 with
  | 0, _ => rfl
  | 1, _ => rfl

/-- Settles O13: the bytes after the instruction do not decide what is decoded. -/
theorem stepRunsDecodedInstruction : Obligations.StepRunsDecodedInstruction := by
  intro s i rest he h
  have hdec := decode_take h
  rw [← State.fetch_eq_take] at hdec
  exact step_of_decode_fetch he hdec

end Sys2Proof.Machine
end

section
/-! PROOFS. The machine invariant along the step and at reset, and the three outcomes of a step
(spec/10_state.md R38, spec/20_memory.md section 1, spec/40_execution_loop.md R91). -/

namespace Sys2Proof.Machine

/-- No effect of an instruction touches the run state, the model fault or the opcode map. -/
theorem Effect.sameExecutor {i : Instr} {s u : State} (h : Effect i s u) : SameExecutor s u := by
  cases h with
  | nothing => exact ⟨rfl, rfl, rfl⟩
  | register => exact ⟨rfl, rfl, rfl⟩
  | flags => exact ⟨rfl, rfl, rfl⟩
  | output => exact ⟨rfl, rfl, rfl⟩
  | hazard => exact ⟨rfl, rfl, rfl⟩
  | push => exact ⟨rfl, rfl, rfl⟩
  | pop => exact ⟨rfl, rfl, rfl⟩
  | popInto => exact ⟨rfl, rfl, rfl⟩

/-- An effect keeps memory in canonical form: it leaves it, or it is a push or a pop. -/
theorem Effect.mem_wf {i : Instr} {s u : State} (h : Effect i s u) (hs : s.mem.wf) : u.mem.wf := by
  cases h with
  | nothing => exact hs
  | register => exact hs
  | flags => exact hs
  | output => exact hs
  | hazard => exact hs
  | push v => exact State.wf_push hs v
  | pop => exact State.wf_pop hs
  | popInto => exact State.wf_pop hs

theorem toNat_of_find_bad {i : Instr} {v : Byte}
    (h : i.registerOperands.find? (fun w => decide (8 ≤ w.toNat)) = some v) : 8 ≤ v.toNat := by
  simpa using List.find?_some h

/-- The consistency conditions ask nothing of an executing core. -/
theorem State.haltConsistent_of_running {s : State} (h : s.run = .running) : s.haltConsistent := by
  rw [State.haltConsistent, h]
  trivial

theorem State.faultConsistent_of_none {s : State} (h : s.fault = none) : s.faultConsistent := by
  rw [State.faultConsistent, h]
  trivial

theorem State.inv_of_executing {s : State} (hmem : s.mem.wf) (hmap : s.opcodes.Ok)
    (he : s.executing) : s.Inv :=
  ⟨hmem, hmap, State.haltConsistent_of_running he.1, State.faultConsistent_of_none he.2⟩

theorem State.inv_raiseBadRegister {s : State} (h : s.Inv) (he : s.executing) {v : Byte}
    (hv : 8 ≤ v.toNat) : (s.raiseBadRegister v).Inv :=
  ⟨h.mem_wf, h.opcodes_ok, State.haltConsistent_of_running he.1, rfl, hv, he.1⟩

theorem State.inv_halt_hlt {s : State} (h : s.Inv) (he : s.executing)
    (hop : s.readByte s.pc = s.opcodes.hlt) : (s.halt .hlt).Inv :=
  ⟨h.mem_wf, h.opcodes_ok, hop, State.faultConsistent_of_none he.2⟩

theorem State.inv_decodeError {s : State} (h : s.Inv) (he : s.executing)
    (hop : s.opcodes.mnemonicOf (s.readByte s.pc) = none) :
    (s.decodeError (s.readByte s.pc)).Inv :=
  ⟨h.mem_wf, h.opcodes_ok, ⟨rfl, rfl, hop, List.getLast?_concat⟩,
    State.faultConsistent_of_none he.2⟩

/-- A core that runs an instruction's effect and goes to a new `pc` is still executing. -/
theorem Effect.executing_redirect {i : Instr} {s u : State} (h : Effect i s u) (he : s.executing)
    (pc' : Byte) : (u.redirect pc').executing := by
  obtain ⟨hrun, hfault, -⟩ := h.sameExecutor
  exact ⟨hrun.trans he.1, hfault.trans he.2⟩

theorem Effect.inv_redirect {i : Instr} {s u : State} (h : Effect i s u) (hs : s.Inv)
    (he : s.executing) (pc' : Byte) : (u.redirect pc').Inv :=
  have hmap : u.opcodes = s.opcodes := h.sameExecutor.2.2
  State.inv_of_executing (h.mem_wf hs.mem_wf) (hmap ▸ hs.opcodes_ok) (h.executing_redirect he pc')

/-- Settles O18: a step is a decode error, a bad register operand, an HLT, or an effect that leaves
the core executing. -/
theorem stepKeepsMachineInvariant : Obligations.StepKeepsMachineInvariant := by
  intro s t hs h
  obtain ⟨he, ⟨hop, rfl⟩ | ⟨i, hop, -, hx⟩⟩ := step_next h
  · exact State.inv_decodeError hs he hop
  · obtain ⟨v, hv, rfl⟩ | ⟨rfl, rfl⟩ | ⟨-, u, pc', hu, rfl⟩ := exec_next hx
    · exact State.inv_raiseBadRegister hs he (toNat_of_find_bad hv)
    · exact State.inv_halt_hlt hs he (OpcodeMap.byteOf_of_mnemonicOf hop).symm
    · exact hu.inv_redirect hs he pc'

/-- Settles O17: the cycle's cases, then the instruction's. -/
theorem executingCoreAlwaysSteps : Obligations.ExecutingCoreAlwaysSteps := by
  intro s hm he
  rw [step_of_executing he]
  obtain ⟨-, hc⟩ | ⟨i, -, hop, -, hc⟩ := cycle_cases hm
  · exact ⟨_, hc, .inr (.inl ⟨he.2, .inr rfl⟩)⟩
  · rw [hc]
    obtain ⟨v, hv, hx⟩ | ⟨rfl, hx⟩ | ⟨-, u, pc', hu, hx⟩ := exec_cases i s
    · exact ⟨_, hx, .inr (.inr ⟨he.1, v, toNat_of_find_bad hv, rfl⟩)⟩
    · exact ⟨_, hx, .inr (.inl ⟨he.2, .inl ⟨rfl, hop.symm.trans hm.hlt_eq⟩⟩)⟩
    · exact ⟨_, hx, .inl (hu.executing_redirect he pc')⟩

theorem State.executing_resetWith (m : OpcodeMap) (flags0 : Byte) :
    (State.resetWith m flags0).executing := ⟨rfl, rfl⟩

/-- The reset state with an image loaded, the empty image included, meets the invariant. -/
theorem State.inv_load_resetWith {m : OpcodeMap} (hm : m.Ok) (flags0 : Byte) {img : List Byte}
    (hl : img.length ≤ 256) : ((State.resetWith m flags0).load img).Inv :=
  State.inv_of_executing (State.wf_load Memory.wf_nil hl) hm (State.executing_resetWith m flags0)

theorem State.inv_resetWith {m : OpcodeMap} (hm : m.Ok) (flags0 : Byte) :
    (State.resetWith m flags0).Inv :=
  State.inv_of_executing Memory.wf_nil hm (State.executing_resetWith m flags0)

/-- Settles O4: the four constraints, each over the twenty bytes. -/
theorem defaultMapMeetsConstraints : Obligations.DefaultMapMeetsConstraints := by
  unfold Obligations.DefaultMapMeetsConstraints
  decide

/-- Settles O19: memory is empty, and the core executes. -/
theorem resetMeetsMachineInvariant : Obligations.ResetMeetsMachineInvariant :=
  ⟨fun _ hm flags0 => State.inv_resetWith hm flags0,
    State.inv_resetWith defaultMapMeetsConstraints Config.flags0⟩

end Sys2Proof.Machine
end

section
/-! PROOFS. What a launch answers (spec/70_reset_and_hazards.md R182) and where it starts. -/

namespace Sys2Proof.Machine

section Lines

variable {cfg : LaunchConfig} {file : List (List Char)} {img : List Byte}

theorem launch_lines_of_none (h : parseImage file = none) :
    launch cfg (.lines file) = .error .invalidLine := by
  simp [launch, h]

theorem launch_lines_of_too_long (h : parseImage file = some img) (hl : 256 < img.length) :
    launch cfg (.lines file) = .error .imageTooLong := by
  simp [launch, h, Nat.not_le.mpr hl]

theorem launch_lines_of_loadable (h : parseImage file = some img) (hl : img.length ≤ 256) :
    launch cfg (.lines file) = .ok ((State.resetWith cfg.opcodes cfg.flags0).load img) := by
  simp [launch, h, hl]

end Lines

theorem launch_loadError (cfg : LaunchConfig) :
    launch cfg .loadError = if cfg.runOnLoadError then .ok (State.resetWith cfg.opcodes cfg.flags0)
      else .error .loadError := rfl

/-- Every state a launch starts from is the reset state, or it with an image of at most 256
bytes. -/
theorem launch_ok {cfg : LaunchConfig} {r : LoadResult} {s : State} (h : launch cfg r = .ok s) :
    s = State.resetWith cfg.opcodes cfg.flags0 ∨
      ∃ img, img.length ≤ 256 ∧ s = (State.resetWith cfg.opcodes cfg.flags0).load img := by
  cases r with
  | loadError =>
    rw [launch_loadError] at h
    split at h
    · exact .inl (Except.ok.inj h).symm
    · cases h
  | lines file =>
    cases hp : parseImage file with
    | none =>
      rw [launch_lines_of_none hp] at h
      cases h
    | some img =>
      by_cases hl : img.length ≤ 256
      · rw [launch_lines_of_loadable hp hl] at h
        exact .inr ⟨img, hl, (Except.ok.inj h).symm⟩
      · rw [launch_lines_of_too_long hp (Nat.lt_of_not_le hl)] at h
        cases h

/-- Settles O20: a launch starts from reset, with or without an image. -/
theorem launchMeetsMachineInvariant : Obligations.LaunchMeetsMachineInvariant := by
  intro cfg r s hm h
  obtain rfl | ⟨img, hl, rfl⟩ := launch_ok h
  · exact ⟨State.inv_resetWith hm _, State.executing_resetWith _ _⟩
  · exact ⟨State.inv_load_resetWith hm _ hl, State.executing_resetWith cfg.opcodes cfg.flags0⟩

end Sys2Proof.Machine
end

section
/-! PROOFS. What an instruction reads: neither trace, and of the flags register bit 0 alone
(spec/10_state.md R26, R35). Two cores that differ only in what is not read perform the same action;
the two statements then compare the action on both. -/

namespace Sys2Proof.Machine

/-- The same core with other traces and another flags byte: what R26 and R35 speak of. -/
def State.withUnread (s : State) (f : Byte) (out : List Byte) (diag : List Diag) : State :=
  { s with fl := f, out := out, diag := diag }

/-- What a step does to a state, its operands already read and its `pc` update left out. -/
inductive Action where
  | nothing
  | alu (r : RegIdx) (result : AluResult)
  | emit (v : Byte)
  | report (d : Diag)
  | push (v : Byte)
  | pop
  | popInto (r : RegIdx) (v : Byte)
  | halt (reason : HaltReason)
  | decodeError (ir : Byte)
  | raiseBadRegister (v : Byte)

/-- An action is one of the state's own operations. -/
def Action.apply : Action → State → State
  | .nothing, s => s
  | .alu r result, s => s.applyAlu r result
  | .emit v, s => s.emit v
  | .report d, s => s.report d
  | .push v, s => s.push v
  | .pop, s => s.pop.2
  | .popInto r v, s => s.pop.2.setReg r v
  | .halt reason, s => s.halt reason
  | .decodeError ir, s => s.decodeError ir
  | .raiseBadRegister v, s => s.raiseBadRegister v

/-- From `s`, and from every core that differs from it only in the traces and in flag bits 7:1, `x`
performs the same action and goes to the same `pc`. -/
def ActsAlike (x : State → Host.Outcome State Fault Refusal) (s : State) : Prop :=
  ∃ (act : Action) (pc' : Byte), ∀ (f : Byte) (out : List Byte) (diag : List Diag),
    f.getLsbD 0 = s.fl.getLsbD 0 →
      x (s.withUnread f out diag) = .next ((act.apply (s.withUnread f out diag)).redirect pc')

/-! ## Every instruction, and the step -/

/-- The register operand check reads the operand byte alone. -/
theorem actsAlike_withReg {s : State} {k : State → RegIdx → Host.Outcome State Fault Refusal}
    (v : Byte) (hk : ∀ r, ActsAlike (fun u => k u r) s) :
    ActsAlike (fun u => withReg v u (k u)) s := by
  obtain ⟨r, rfl⟩ | hv := operand_cases v
  · simpa only [ActsAlike, withReg_regByte] using hk r
  · exact ⟨.raiseBadRegister v, s.pc, fun _ _ _ _ => withReg_bad hv⟩

/-- Neither a register write nor a flags write moves `pc`. -/
theorem State.advance_applyAlu (s : State) (r : RegIdx) (result : AluResult) (op : Mnemonic) :
    (s.applyAlu r result).advance op = (s.applyAlu r result).redirect (s.nextPc op) := by
  cases result <;> rfl

theorem actsAlike_execAlu2 (tag : AluTag) (op : Mnemonic) (a b : Byte) (s : State) :
    ActsAlike (execAlu2 tag op a b) s :=
  actsAlike_withReg a fun rA => actsAlike_withReg b fun rB =>
    ⟨.alu rA (alu tag (s.getReg rA) (s.getReg rB)), s.nextPc op, fun _ _ _ _ =>
      congrArg Host.Outcome.next (State.advance_applyAlu _ rA _ op)⟩

/-- The divisor, which no trace and no flag decides, selects the report or the remainder. -/
theorem actsAlike_execMod (a b : Byte) (s : State) : ActsAlike (execMod a b) s := by
  refine actsAlike_withReg a fun rA => actsAlike_withReg b fun rB => ?_
  by_cases hz : s.getReg rB = 0
  · refine ⟨.report (.modByZero s.pc), s.nextPc .mod, fun f out diag _ => ?_⟩
    have hz' : (s.withUnread f out diag).getReg rB = 0 := hz
    beta_reduce
    rw [if_pos hz']
    rfl
  · refine ⟨.alu rA (alu .mod (s.getReg rA) (s.getReg rB)), s.nextPc .mod, fun f out diag _ => ?_⟩
    have hz' : ¬(s.withUnread f out diag).getReg rB = 0 := hz
    beta_reduce
    rw [if_neg hz']
    rfl

theorem State.equalFlag_withUnread {s : State} {f : Byte} (hf : f.getLsbD 0 = s.fl.getLsbD 0)
    (out : List Byte) (diag : List Diag) : (s.withUnread f out diag).equalFlag = s.equalFlag := hf

theorem actsAlike_execJeq (a : Byte) (s : State) : ActsAlike (execJeq a) s := by
  refine actsAlike_withReg a fun rA =>
    ⟨.nothing, if s.equalFlag then s.getReg rA else s.nextPc .jeq, fun f out diag hf => ?_⟩
  beta_reduce
  rw [State.equalFlag_withUnread hf]
  rfl

theorem actsAlike_execJne (a : Byte) (s : State) : ActsAlike (execJne a) s := by
  refine actsAlike_withReg a fun rA =>
    ⟨.nothing, if s.equalFlag then s.nextPc .jne else s.getReg rA, fun f out diag hf => ?_⟩
  beta_reduce
  rw [State.equalFlag_withUnread hf]
  rfl

/-- Every instruction but JEQ, JNE and MOD finds its action by its operands alone. -/
theorem actsAlike_exec (i : Instr) (s : State) : ActsAlike (exec i) s := by
  cases i with
  | hlt => exact ⟨.halt .hlt, s.pc, fun _ _ _ _ => rfl⟩
  | ret => exact ⟨.pop, s.pop.1, fun _ _ _ _ => rfl⟩
  | push a =>
    exact actsAlike_withReg a fun r => ⟨.push (s.getReg r), s.nextPc .push, fun _ _ _ _ => rfl⟩
  | pop a =>
    exact actsAlike_withReg a fun r => ⟨.popInto r s.pop.1, s.nextPc .pop, fun _ _ _ _ => rfl⟩
  | prn a =>
    exact actsAlike_withReg a fun r => ⟨.emit (s.getReg r), s.nextPc .prn, fun _ _ _ _ => rfl⟩
  | call a =>
    exact actsAlike_withReg a fun r =>
      ⟨.push (s.nextPc .call), (s.push (s.nextPc .call)).getReg r, fun _ _ _ _ => rfl⟩
  | jmp a => exact actsAlike_withReg a fun r => ⟨.nothing, s.getReg r, fun _ _ _ _ => rfl⟩
  | jeq a => exact actsAlike_execJeq a s
  | jne a => exact actsAlike_execJne a s
  | not a =>
    exact actsAlike_withReg a fun r =>
      ⟨.alu r (alu .not (s.getReg r) 0), s.nextPc .not, fun _ _ _ _ => rfl⟩
  | ldi a imm =>
    exact actsAlike_withReg a fun r => ⟨.alu r (.value imm), s.nextPc .ldi, fun _ _ _ _ => rfl⟩
  | mod a b => exact actsAlike_execMod a b s
  | add a b => exact actsAlike_execAlu2 .add .add a b s
  | mul a b => exact actsAlike_execAlu2 .mul .mul a b s
  | cmp a b => exact actsAlike_execAlu2 .cmp .cmp a b s
  | and a b => exact actsAlike_execAlu2 .and .and a b s
  | or a b => exact actsAlike_execAlu2 .or .or a b s
  | xor a b => exact actsAlike_execAlu2 .xor .xor a b s
  | shl a b => exact actsAlike_execAlu2 .shl .shl a b s
  | shr a b => exact actsAlike_execAlu2 .shr .shr a b s

/-- The fetch and the decoder read memory, `pc` and the opcode map; whether there is a step at all
is read from the run state and the fault. -/
theorem actsAlike_step {s t : State} (h : step s = .next t) : ActsAlike step s := by
  obtain ⟨he, ⟨hop, -⟩ | ⟨i, -, ⟨rest, hdec⟩, -⟩⟩ := step_next h
  · refine ⟨.decodeError (s.readByte s.pc), s.pc, fun f out diag _ => ?_⟩
    rw [step_of_executing (s := s.withUnread f out diag) he,
      cycle_of_undefined (s := s.withUnread f out diag) hop]
    rfl
  · obtain ⟨act, pc', hact⟩ := actsAlike_exec i s
    refine ⟨act, pc', fun f out diag hf => ?_⟩
    rw [step_of_decode_fetch (s := s.withUnread f out diag) he hdec, hact f out diag hf]

/-- The action of a known next state, which every core that differs in nothing read performs too. -/
theorem step_next_action {s t : State} (h : step s = .next t) :
    ∃ (act : Action) (pc' : Byte), t = (act.apply s).redirect pc' ∧
      ∀ (f : Byte) (out : List Byte) (diag : List Diag), f.getLsbD 0 = s.fl.getLsbD 0 →
        step (s.withUnread f out diag) =
          .next ((act.apply (s.withUnread f out diag)).redirect pc') := by
  obtain ⟨act, pc', hact⟩ := actsAlike_step h
  have hs := h.symm.trans (hact s.fl s.out s.diag rfl)
  exact ⟨act, pc', Host.Outcome.next.inj hs, hact⟩

/-! ## The two statements -/

/-- What an action appends to the output trace. -/
def Action.newOut : Action → List Byte
  | .emit v => [v]
  | _ => []

/-- What an action, performed at `pc`, appends to the diagnostic trace. -/
def Action.newDiag (pc : Byte) : Action → List Diag
  | .report d => [d]
  | .decodeError ir => [.badOpcode ir pc]
  | _ => []

/-- An action on a core with other traces: the same, but for what it appends to them. -/
theorem Action.apply_withTraces (act : Action) (s : State) (out : List Byte) (diag : List Diag) :
    act.apply { s with out := out, diag := diag } =
      { act.apply s with out := out ++ act.newOut, diag := diag ++ act.newDiag s.pc } := by
  have keep : { act.apply s with out := out, diag := diag } =
      { act.apply s with out := out ++ [], diag := diag ++ [] } := by
    rw [List.append_nil, List.append_nil]
  cases act with
  | alu r result => cases result <;> exact keep
  | nothing => exact keep
  | push => exact keep
  | pop => exact keep
  | popInto => exact keep
  | halt => exact keep
  | raiseBadRegister => exact keep
  | emit v => simp only [apply, newOut, newDiag, State.emit, List.append_nil]
  | report d => simp only [apply, newOut, newDiag, State.report, List.append_nil]
  | decodeError ir =>
    simp only [apply, newOut, newDiag, State.decodeError, State.report, State.halt, List.append_nil]

/-- An action on a core with another flags byte: the same, but for the flags byte, which it writes
alike on both or keeps on both. -/
theorem Action.apply_withFlags (act : Action) (s : State) (f : Byte) :
    ∃ f' : Byte, act.apply { s with fl := f } = { act.apply s with fl := f' } ∧
      (f' = (act.apply s).fl ∨ (f' = f ∧ (act.apply s).fl = s.fl)) := by
  cases act with
  | alu r result =>
    cases result with
    | value v => exact ⟨f, rfl, .inr ⟨rfl, rfl⟩⟩
    | flags w => exact ⟨w, rfl, .inl rfl⟩
  | nothing => exact ⟨f, rfl, .inr ⟨rfl, rfl⟩⟩
  | emit => exact ⟨f, rfl, .inr ⟨rfl, rfl⟩⟩
  | report => exact ⟨f, rfl, .inr ⟨rfl, rfl⟩⟩
  | push => exact ⟨f, rfl, .inr ⟨rfl, rfl⟩⟩
  | pop => exact ⟨f, rfl, .inr ⟨rfl, rfl⟩⟩
  | popInto => exact ⟨f, rfl, .inr ⟨rfl, rfl⟩⟩
  | halt => exact ⟨f, rfl, .inr ⟨rfl, rfl⟩⟩
  | decodeError => exact ⟨f, rfl, .inr ⟨rfl, rfl⟩⟩
  | raiseBadRegister => exact ⟨f, rfl, .inr ⟨rfl, rfl⟩⟩

/-- Settles O21: both cores perform one action, which appends the same records to both traces. -/
theorem tracesAreNeverRead : Obligations.TracesAreNeverRead := by
  intro s t out diag h
  obtain ⟨act, pc', rfl, hact⟩ := step_next_action h
  have happ := act.apply_withTraces s
  refine ⟨act.newOut, act.newDiag s.pc, congrArg State.out (happ s.out s.diag),
    congrArg State.diag (happ s.out s.diag), (hact s.fl out diag rfl).trans ?_⟩
  exact congrArg (fun u : State => Host.Outcome.next (u.redirect pc')) (happ out diag)

/-- Settles O22: both cores perform one action, which writes the flags alike or not at all. -/
theorem onlyEqualBitIsRead : Obligations.OnlyEqualBitIsRead := by
  intro s t f hf h
  obtain ⟨act, pc', rfl, hact⟩ := step_next_action h
  obtain ⟨f', happ, hcases⟩ := act.apply_withFlags s f
  refine ⟨f', (hact f s.out s.diag hf).trans ?_, hcases⟩
  exact congrArg (fun u : State => Host.Outcome.next (u.redirect pc')) happ

end Sys2Proof.Machine
end

section
/-! PROOFS. What an instruction writes: memory (spec/20_memory.md R45), the output trace
(spec/43_load_print.md R132) and the registers (spec/10_state.md R24); and the fault of a bad register
operand (spec/60_exceptions.md R164, R167). -/

namespace Sys2Proof.Machine

theorem State.readByte_push_self (s : State) (v : Byte) :
    (s.push v).readByte (s.getReg sp - 1) = v := by
  rw [State.readByte_push, if_pos rfl]

theorem State.sameMemoryExcept_push (s : State) (v : Byte) :
    SameMemoryExcept (s.getReg sp - 1) s (s.push v) :=
  fun x hx => by rw [State.readByte_push, if_neg hx]

/-! ## Memory -/

/-- An effect leaves memory alone, or is the push of PUSH and CALL, or the pop of POP and RET. -/
theorem Effect.mem_cases {i : Instr} {s u : State} (h : Effect i s u) :
    (u.mem = s.mem ∧ i.mnemonic ∉ [Mnemonic.push, .call, .pop, .ret]) ∨
      (i.mnemonic ∈ [Mnemonic.push, .call] ∧ ∃ v, u.mem = (s.push v).mem) ∨
      (i.mnemonic ∈ [Mnemonic.pop, .ret] ∧ u.mem = s.pop.2.mem) := by
  cases h with
  | nothing hi => obtain ⟨a, rfl | rfl | rfl⟩ := hi <;> exact .inl ⟨rfl, by simp [Instr.mnemonic]⟩
  | register r v _ hi =>
    refine .inl ⟨rfl, fun hmem => hi ?_⟩
    simp only [List.mem_cons] at hmem ⊢
    tauto
  | flags r q hi => exact .inl ⟨rfl, by rw [hi, Instr.mnemonic]; decide⟩
  | output r hi => exact .inl ⟨rfl, by rw [hi, Instr.mnemonic]; decide⟩
  | hazard r q hi => exact .inl ⟨rfl, by rw [hi, Instr.mnemonic]; decide⟩
  | push v hi =>
    obtain ⟨r, rfl | rfl⟩ := hi <;> exact .inr (.inl ⟨by simp [Instr.mnemonic], v, rfl⟩)
  | pop hi => exact .inr (.inr ⟨by rw [hi, Instr.mnemonic]; decide, rfl⟩)
  | popInto r hi => exact .inr (.inr ⟨by rw [hi, Instr.mnemonic]; decide, rfl⟩)

theorem not_wellFormed_of_find_bad {i : Instr} {v : Byte}
    (h : i.registerOperands.find? (fun w => decide (8 ≤ w.toNat)) = some v) :
    i.wellFormed = false := by
  have hv := toNat_of_find_bad h
  exact List.all_eq_false.mpr ⟨v, List.mem_of_find?_eq_some h, by simpa using hv⟩

/-- The same for an instruction: a bad register operand leaves memory alone too. -/
theorem exec_mem_cases {i : Instr} {s t : State} (h : exec i s = .next t) :
    (t.mem = s.mem ∧
        (i.mnemonic ∉ [Mnemonic.push, .call, .pop, .ret] ∨ i.wellFormed = false)) ∨
      i.wellFormed = true ∧
        ((i.mnemonic ∈ [Mnemonic.push, .call] ∧ ∃ v, t.mem = (s.push v).mem) ∨
          (i.mnemonic ∈ [Mnemonic.pop, .ret] ∧ t.mem = s.pop.2.mem)) := by
  obtain ⟨v, hv, rfl⟩ | ⟨rfl, rfl⟩ | ⟨hw, u, pc', hu, rfl⟩ := exec_next h
  · exact .inl ⟨rfl, .inr (not_wellFormed_of_find_bad hv)⟩
  · exact .inl ⟨rfl, .inl (by decide)⟩
  · obtain ⟨hmem, hi⟩ | hstack := hu.mem_cases
    · exact .inl ⟨hmem, .inl hi⟩
    · exact .inr ⟨hw, hstack⟩

theorem mnemonic_not_pop_of_push {op : Mnemonic} (h : op ∈ [Mnemonic.push, .call]) :
    op ∉ [Mnemonic.pop, .ret] := by
  cases op <;> simp at h ⊢

/-- Settles O24: memory is left alone, or written by one push or one pop. -/
theorem onlyStackInstructionsWriteMemory : Obligations.OnlyStackInstructionsWriteMemory := by
  intro i s t h
  have hcases := exec_mem_cases h
  refine ⟨fun hi => ?_, fun hw => ?_, fun hi => ?_, fun r hi => ?_, fun r hi => ?_, fun hi => ?_⟩
  · obtain ⟨hmem, -⟩ | ⟨-, ⟨hi', -⟩ | ⟨hi', -⟩⟩ := hcases
    · exact State.readByte_congr hmem
    · exact absurd (List.mem_append_left [Mnemonic.pop, .ret] hi') hi
    · exact absurd (List.mem_append_right [Mnemonic.push, .call] hi') hi
  · obtain ⟨hmem, -⟩ | ⟨hw', -⟩ := hcases
    · exact State.readByte_congr hmem
    · exact absurd (hw.symm.trans hw') (by decide)
  · obtain ⟨hmem, -⟩ | ⟨-, ⟨-, v, hmem⟩ | ⟨hi', -⟩⟩ := hcases
    · exact fun x _ => State.readByte_congr hmem x
    · exact fun x hx => (State.readByte_congr hmem x).trans (s.sameMemoryExcept_push v x hx)
    · exact absurd hi' (mnemonic_not_pop_of_push hi)
  · subst hi
    obtain rfl := Host.Outcome.next.inj ((exec_push s r).symm.trans h)
    exact s.readByte_push_self (s.getReg r)
  · subst hi
    obtain rfl := Host.Outcome.next.inj ((exec_call s r).symm.trans h)
    have hcell := s.readByte_push_self (s.nextPc .call)
    exact (congrArg BitVec.toNat hcell).trans (s.nextPc_toNat .call)
  · obtain ⟨hmem, hi' | hw⟩ | ⟨-, ⟨hi', -⟩ | ⟨-, hmem⟩⟩ := hcases
    · exact absurd (List.mem_append_right [Mnemonic.push, .call] hi) hi'
    · exact ⟨fun x _ => State.readByte_congr hmem x,
        fun hw' => absurd (hw.symm.trans hw') (by decide)⟩
    · exact absurd hi (mnemonic_not_pop_of_push hi')
    · exact ⟨fun x hx => (State.readByte_congr hmem x).trans (s.sameMemoryExcept_pop x hx),
        fun _ => (State.readByte_congr hmem _).trans s.readByte_pop_sp⟩

/-! ## The output trace -/

/-- Of the shapes of effect an instruction can have, only the output extends the output trace. -/
theorem Effect.out_eq_or_prn {i : Instr} {s u : State} (h : Effect i s u) :
    u.out = s.out ∨ ∃ r : RegIdx, i = .prn (regByte r) ∧ u.out = s.out ++ [s.getReg r] := by
  cases h with
  | output r hi => exact .inr ⟨r, hi, State.emit_out s _⟩
  | nothing => exact .inl rfl
  | register r v => exact .inl (State.setReg_out s r v)
  | flags => exact .inl (State.setFlags_out s _)
  | hazard => exact .inl (State.report_out s _)
  | push v => exact .inl (State.push_out s v)
  | pop => exact .inl (State.pop_snd_out s)
  | popInto => exact .inl (State.pop_snd_out s)

/-- Settles O25: a bad register operand and HLT emit nothing; the rest is the instruction's effect. -/
theorem onlyPrnExtendsOutput : Obligations.OnlyPrnExtendsOutput := by
  intro i s t h
  obtain ⟨v, -, rfl⟩ | ⟨-, rfl⟩ | ⟨-, u, pc', hu, rfl⟩ := exec_next h
  · exact .inl (State.raiseBadRegister_out s v)
  · exact .inl (State.halt_out s .hlt)
  · exact hu.out_eq_or_prn

/-! ## Registers -/

/-- The instructions that write a register but no stack cell, listed both ways. -/
theorem mnemonic_mem_of_writes_register {op : Mnemonic}
    (h : op ∉ [Mnemonic.hlt, .ret, .push, .pop, .prn, .call, .jmp, .jeq, .jne, .cmp]) :
    op ∈ [Mnemonic.ldi, .pop, .not, .add, .mul, .mod, .and, .or, .xor, .shl, .shr] := by
  cases op <;> simp at h ⊢

/-- A register that an effect changes is the stack pointer of a push or a pop, or the register it
writes. -/
theorem Effect.reg_changed {i : Instr} {s u : State} (h : Effect i s u) {r : RegIdx}
    (hr : u.getReg r ≠ s.getReg r) :
    (r = sp ∧ i.mnemonic ∈ [Mnemonic.push, .pop, .call, .ret]) ∨
      (i.registerOperands.head? = some (regByte r) ∧
        i.mnemonic ∈ [Mnemonic.ldi, .pop, .not, .add, .mul, .mod, .and, .or, .xor, .shl, .shr]) := by
  cases h with
  | nothing => exact absurd rfl hr
  | flags => exact absurd rfl hr
  | output => exact absurd rfl hr
  | hazard => exact absurd rfl hr
  | register q v hq hi =>
    have hrq : r = q := by
      by_contra hne
      exact hr (by rw [State.getReg_setReg, if_neg hne])
    exact .inr ⟨hrq ▸ hq, mnemonic_mem_of_writes_register hi⟩
  | push v hi =>
    have hrsp : r = sp := by
      by_contra hne
      exact hr (by rw [State.getReg_push, if_neg hne])
    obtain ⟨q, rfl | rfl⟩ := hi <;> exact .inl ⟨hrsp, by simp [Instr.mnemonic]⟩
  | pop hi =>
    have hrsp : r = sp := by
      by_contra hne
      exact hr (by rw [State.getReg_pop, if_neg hne])
    exact .inl ⟨hrsp, by simp [hi, Instr.mnemonic]⟩
  | popInto q hi =>
    subst hi
    by_cases hrq : r = q
    · exact .inr ⟨hrq ▸ rfl, by simp [Instr.mnemonic]⟩
    · have hrsp : r = sp := by
        by_contra hne
        exact hr (by rw [State.getReg_setReg, if_neg hrq, State.getReg_pop, if_neg hne])
      exact .inl ⟨hrsp, by simp [Instr.mnemonic]⟩

/-- Settles O26: a bad register operand and HLT write no register; the rest is the instruction's
effect. -/
theorem registerChangesAreNamed : Obligations.RegisterChangesAreNamed := by
  intro i s t r h hr
  obtain ⟨v, -, rfl⟩ | ⟨-, rfl⟩ | ⟨-, u, pc', hu, rfl⟩ := exec_next h
  · exact absurd rfl hr
  · exact absurd rfl hr
  · exact hu.reg_changed hr

/-! ## A bad register operand -/

/-- Settles O27: HLT has no operand and a well-formed instruction no bad one. -/
theorem badRegisterOperandRecordsFault : Obligations.BadRegisterOperandRecordsFault := by
  intro i s v hv
  obtain ⟨w, hw, hx⟩ | ⟨rfl, -⟩ | ⟨hwf, -⟩ := exec_cases i s
  · obtain rfl := Option.some.inj (hw.symm.trans hv)
    exact hx
  · cases hv
  · exact absurd ((not_wellFormed_of_find_bad hv).symm.trans hwf) (by decide)

end Sys2Proof.Machine
end

section
/-! PROOFS. The frames of the instructions that only write a register, the flags or the output, of the
jumps and of HLT (spec/42_alu.md, spec/43_load_print.md, spec/44_control.md). -/

namespace Sys2Proof.Machine

theorem State.sameRegsExcept_setReg (s : State) (r : RegIdx) (v : Byte) :
    SameRegsExcept [r] s (s.setReg r v) :=
  fun q hq => by rw [State.getReg_setReg, if_neg (List.ne_of_not_mem_cons hq)]

/-- The frame of a register write with a normal advance. -/
theorem State.frame_setReg_advance (s : State) (r : RegIdx) (v : Byte) (op : Mnemonic) :
    SameRegsExcept [r] s ((s.setReg r v).advance op) ∧ ((s.setReg r v).advance op).fl = s.fl ∧
      SameMemory s ((s.setReg r v).advance op) ∧ SameTraces s ((s.setReg r v).advance op) ∧
      SameExecutor s ((s.setReg r v).advance op) ∧ Advanced op s ((s.setReg r v).advance op) :=
  ⟨s.sameRegsExcept_setReg r v, rfl, fun _ => rfl, ⟨rfl, rfl⟩, ⟨rfl, rfl, rfl⟩, s.nextPc_toNat op⟩

/-- The nine register-writing ALU operations, MOD with a divisor that is not zero, are a write of
register A and a normal advance. -/
theorem exec_alu_eq_setReg {s : State} {rA rB : RegIdx} {i : Instr}
    (h : i ∈ [Instr.add (regByte rA) (regByte rB), .mul (regByte rA) (regByte rB),
        .and (regByte rA) (regByte rB), .or (regByte rA) (regByte rB),
        .xor (regByte rA) (regByte rB), .shl (regByte rA) (regByte rB),
        .shr (regByte rA) (regByte rB), .not (regByte rA)] ∨
      (i = .mod (regByte rA) (regByte rB) ∧ s.getReg rB ≠ 0)) :
    ∃ v, exec i s = .next ((s.setReg rA v).advance i.mnemonic) := by
  simp only [List.mem_cons, List.not_mem_nil, or_false] at h
  obtain (rfl | rfl | rfl | rfl | rfl | rfl | rfl | rfl) | ⟨rfl, hz⟩ := h
  · exact ⟨_, exec_add s rA rB⟩
  · exact ⟨_, exec_mul s rA rB⟩
  · exact ⟨_, exec_and s rA rB⟩
  · exact ⟨_, exec_or s rA rB⟩
  · exact ⟨_, exec_xor s rA rB⟩
  · exact ⟨_, exec_shl s rA rB⟩
  · exact ⟨_, exec_shr s rA rB⟩
  · exact ⟨_, exec_not s rA⟩
  · have hx := exec_mod s rA rB
    rw [if_neg hz] at hx
    exact ⟨_, hx⟩

/-- Settles O29: each is a write of register A and an advance. -/
theorem aluRegisterFrame : Obligations.AluRegisterFrame := by
  intro s rA rB i h
  obtain ⟨v, hx⟩ := exec_alu_eq_setReg h
  exact ⟨_, hx, s.frame_setReg_advance rA v i.mnemonic⟩

/-- Settles O33: LDI is a write of register A and an advance. -/
theorem ldiLoadsImmediate : Obligations.LdiLoadsImmediate := fun s rA imm =>
  ⟨_, exec_ldi s rA imm, State.getReg_setReg_self s rA imm, s.frame_setReg_advance rA imm .ldi⟩

/-- Settles O32: CMP is a write of `cmpFlags` and an advance. -/
theorem cmpWritesFlagsByteAndFrame : Obligations.CmpWritesFlagsByteAndFrame := fun s rA rB =>
  ⟨_, exec_cmp s rA rB, rfl, fun _ _ => rfl, fun _ => rfl, ⟨rfl, rfl⟩, ⟨rfl, rfl, rfl⟩,
    s.nextPc_toNat .cmp⟩

/-- Settles O34: PRN is an output and an advance. -/
theorem prnEmitsRegister : Obligations.PrnEmitsRegister := fun s rA =>
  ⟨_, exec_prn s rA, State.emit_out s _, rfl, fun _ _ => rfl, rfl, fun _ => rfl, ⟨rfl, rfl, rfl⟩,
    s.nextPc_toNat .prn⟩

/-- The Equal flag is the parity of the flags byte. -/
theorem State.equalFlag_iff (s : State) : s.equalFlag = true ↔ s.fl.toNat % 2 = 1 := by
  rw [State.equalFlag, BitVec.getLsbD, Nat.testBit_zero, decide_eq_true_iff]

/-- Settles O42: each jump is a redirect, to the register or past itself by the Equal flag. -/
theorem jumpsFollowEqualFlag : Obligations.JumpsFollowEqualFlag := by
  intro s rA
  refine ⟨exec_jmp s rA, ⟨_, exec_jeq s rA, ?_⟩, ⟨_, exec_jne s rA, ?_⟩⟩
  · by_cases h : s.fl.toNat % 2 = 1
    · rw [if_pos (s.equalFlag_iff.mpr h), if_pos h]
    · rw [if_neg (mt s.equalFlag_iff.mp h), if_neg h, State.nextPc_toNat]
  · by_cases h : s.fl.toNat % 2 = 1
    · rw [if_pos (s.equalFlag_iff.mpr h), if_neg (by omega), State.nextPc_toNat]
    · rw [if_neg (mt s.equalFlag_iff.mp h), if_pos (by omega)]

/-- Settles O43: HLT is the model's halt, which changes the run state alone. -/
theorem hltHaltsInPlace : Obligations.HltHaltsInPlace := exec_hlt

end Sys2Proof.Machine
end

section
/-! PROOFS. PUSH, POP, CALL and RET (spec/41_stack.md, spec/44_control.md). -/

namespace Sys2Proof.Machine

theorem State.getReg_push_sp (s : State) (v : Byte) :
    (s.push v).getReg sp = s.getReg sp - 1 := by
  rw [State.getReg_push, if_pos rfl]

theorem State.toNat_getReg_push_sp (s : State) (v : Byte) :
    ((s.push v).getReg sp).toNat = ((s.getReg sp).toNat + 255) % 256 := by
  rw [State.getReg_push_sp, BitVec.toNat_sub, Nat.add_comm]
  rfl

theorem State.sameRegsExcept_push (s : State) (v : Byte) : SameRegsExcept [sp] s (s.push v) :=
  fun r hr => by rw [State.getReg_push, if_neg (List.ne_of_not_mem_cons hr)]

theorem State.readByte_push_getReg_sp (s : State) (v : Byte) :
    (s.push v).readByte ((s.push v).getReg sp) = v := by
  rw [State.getReg_push_sp, State.readByte_push_self]

theorem State.sameMemoryExcept_push_getReg_sp (s : State) (v : Byte) :
    SameMemoryExcept ((s.push v).getReg sp) s (s.push v) := by
  rw [State.getReg_push_sp]
  exact s.sameMemoryExcept_push v

/-- Settles O36: PUSH is a push of the register, read first, and an advance. -/
theorem pushStoresBelowStackPointer : Obligations.PushStoresBelowStackPointer := by
  intro s rA
  let v := s.getReg rA
  exact ⟨_, exec_push s rA, s.toNat_getReg_push_sp v, s.readByte_push_getReg_sp v,
    s.sameMemoryExcept_push_getReg_sp v, s.sameRegsExcept_push v, rfl, ⟨rfl, rfl⟩, ⟨rfl, rfl, rfl⟩,
    s.nextPc_toNat .push⟩

/-- Settles O39: CALL is a push of the address after it and a redirect to the register, read after. -/
theorem callPushesReturnAddress : Obligations.CallPushesReturnAddress := by
  intro s rA
  let v := s.nextPc .call
  have hcell := congrArg BitVec.toNat (s.readByte_push_getReg_sp v)
  exact ⟨_, exec_call s rA, s.getReg_push v rA, s.toNat_getReg_push_sp v,
    hcell.trans (s.nextPc_toNat .call), s.sameMemoryExcept_push_getReg_sp v,
    s.sameRegsExcept_push v, rfl, ⟨rfl, rfl⟩, ⟨rfl, rfl, rfl⟩⟩

/-- Settles O40: RET is a pop and a redirect to the byte popped. -/
theorem retPopsProgramCounter : Obligations.RetPopsProgramCounter := fun s =>
  ⟨_, exec_ret s, s.pop_fst, s.readByte_pop_sp, s.toNat_getReg_pop_sp, s.sameMemoryExcept_pop,
    s.sameRegsExcept_pop, rfl, ⟨rfl, rfl⟩, ⟨rfl, rfl, rfl⟩⟩

/-- Settles O37: POP is a pop, then a write of the register, and an advance. -/
theorem popLoadsAndZeroes : Obligations.PopLoadsAndZeroes := by
  intro s rA
  refine ⟨_, exec_pop s rA, State.getReg_setReg_self s.pop.2 rA s.pop.1, fun hne => ?_,
    s.readByte_pop_sp, s.sameMemoryExcept_pop, fun r hr => ?_, rfl, ⟨rfl, rfl⟩, ⟨rfl, rfl, rfl⟩,
    s.nextPc_toNat .pop⟩
  · rw [State.getReg_advance, State.getReg_setReg, if_neg hne.symm, State.toNat_getReg_pop_sp]
  · obtain ⟨hsp, hA⟩ := List.ne_and_not_mem_of_not_mem_cons hr
    rw [State.getReg_advance, State.getReg_setReg, if_neg (List.ne_of_not_mem_cons hA),
      State.getReg_pop, if_neg hsp]

/-- The pop after a push reads what was pushed. -/
theorem State.pop_fst_push (s : State) (v : Byte) : (s.push v).pop.1 = v := by
  rw [State.pop_fst, State.getReg_push_sp, State.readByte_push_self]

/-- It restores every register. -/
theorem State.getReg_pop_push (s : State) (v : Byte) (r : RegIdx) :
    (s.push v).pop.2.getReg r = s.getReg r := by
  rw [State.getReg_pop, State.getReg_push_sp, State.getReg_push]
  by_cases h : r = sp
  · rw [if_pos h, h, BitVec.sub_add_cancel]
  · rw [if_neg h, if_neg h]

/-- It empties the cell written and leaves the others. -/
theorem State.readByte_pop_push (s : State) (v x : Byte) :
    (s.push v).pop.2.readByte x = if x = s.getReg sp - 1 then 0 else s.readByte x := by
  rw [State.readByte_pop, State.getReg_push_sp, State.readByte_push]
  split <;> rfl

/-- Settles O38: after the push and the pop the registers are as before, then POP's is written. -/
theorem pushThenPopCopies : Obligations.PushThenPopCopies := by
  intro s rX rY
  refine ⟨_, _, exec_push s rX, exec_pop _ rY, ?_, fun hne => ?_, ?_, fun x hx => ?_, fun r hr => ?_⟩
  · rw [State.getReg_advance, State.getReg_setReg_self]
    exact s.pop_fst_push _
  · rw [State.getReg_advance, State.getReg_setReg, if_neg hne.symm]
    exact s.getReg_pop_push (s.getReg rX) sp
  · exact (s.readByte_pop_push _ _).trans (if_pos rfl)
  · exact (s.readByte_pop_push _ _).trans (if_neg hx)
  · rw [State.getReg_advance, State.getReg_setReg, if_neg (List.ne_of_not_mem_cons hr)]
    exact s.getReg_pop_push (s.getReg rX) r

/-- Settles O41: RET goes to the byte in the cell R7 points to, which is the address pushed. -/
theorem callThenRetReturns : Obligations.CallThenRetReturns := by
  intro s t u rA h hsp hcell
  obtain rfl := Host.Outcome.next.inj ((exec_call s rA).symm.trans h)
  have hsp' : u.getReg sp = s.getReg sp - 1 := hsp.trans (s.getReg_push_sp (s.nextPc .call))
  have hcell' : u.readByte (u.getReg sp) = s.nextPc .call :=
    hcell.trans (s.pop_fst_push (s.nextPc .call))
  refine ⟨_, exec_ret u, (congrArg BitVec.toNat hcell').trans (s.nextPc_toNat .call), ?_⟩
  calc u.pop.2.getReg sp = u.getReg sp + 1 := by rw [State.getReg_pop, if_pos rfl]
    _ = s.getReg sp := by rw [hsp', BitVec.sub_add_cancel]

/-- Byte `k` of the next fetch, read in the memory a stack operation left. -/
theorem State.fetch_getElem_of_mem {t u : State} (hmem : t.mem = u.mem) (k : Nat)
    (h : k < t.fetch.length) : t.fetch[k] = u.readByte (mod8 (t.pc.toNat + k)) := by
  rw [State.fetch_getElem, State.readByte_congr hmem]

/-- Settles O45: the fetch reads memory as the push or the pop left it. -/
theorem stackWriteIsSeenByNextFetch : Obligations.StackWriteIsSeenByNextFetch := by
  intro s t r k h
  refine ⟨fun hx => ?_, fun hx => ?_, fun hx => ?_, fun hx => ?_⟩
  · obtain rfl := Host.Outcome.next.inj ((exec_push s r).symm.trans hx)
    exact (State.fetch_getElem_of_mem rfl k h).trans (s.readByte_push (s.getReg r) _)
  · obtain rfl := Host.Outcome.next.inj ((exec_call s r).symm.trans hx)
    exact (State.fetch_getElem_of_mem rfl k h).trans (s.readByte_push (s.nextPc .call) _)
  · obtain rfl := Host.Outcome.next.inj ((exec_pop s r).symm.trans hx)
    exact (State.fetch_getElem_of_mem rfl k h).trans (s.readByte_pop _)
  · obtain rfl := Host.Outcome.next.inj ((exec_ret s).symm.trans hx)
    exact (State.fetch_getElem_of_mem rfl k h).trans (s.readByte_pop _)

end Sys2Proof.Machine
end

section
/-! PROOFS. The normal advance (spec/40_execution_loop.md R85, R86), the decode error
(spec/60_exceptions.md R161), and the states that have no step (spec/40_execution_loop.md R92). -/

namespace Sys2Proof.Machine

theorem exists_eq_regByte {v : Byte} (h : v.toNat < 8) : ∃ r, v = regByte r :=
  (operand_cases v).resolve_right (Nat.not_le.mpr h)

/-- A well-formed instruction with one register operand names a register. -/
theorem exists_reg_of_wellFormed {i : Instr} {a : Byte} (h : i.wellFormed = true)
    (hi : i.registerOperands = [a]) : ∃ r, a = regByte r := by
  rw [Instr.wellFormed, hi] at h
  exact exists_eq_regByte (by simpa using h)

/-- The same for two register operands. -/
theorem exists_regs_of_wellFormed {i : Instr} {a b : Byte} (h : i.wellFormed = true)
    (hi : i.registerOperands = [a, b]) : (∃ r, a = regByte r) ∧ ∃ q, b = regByte q := by
  rw [Instr.wellFormed, hi] at h
  obtain ⟨ha, hb⟩ : a.toNat < 8 ∧ b.toNat < 8 := by simpa using h
  exact ⟨exists_eq_regByte ha, exists_eq_regByte hb⟩

/-- An instruction that neither redirects nor halts, on registers that exist, moves `pc` past itself. -/
theorem exec_pc_eq_nextPc {i : Instr} (s : State) (hw : i.wellFormed = true)
    (hi : i.mnemonic ∉ [Mnemonic.call, .ret, .jmp, .hlt])
    (hjeq : i.mnemonic = .jeq → s.equalFlag = false)
    (hjne : i.mnemonic = .jne → s.equalFlag = true) :
    ∃ t, exec i s = .next t ∧ t.pc = s.nextPc i.mnemonic := by
  cases i with
  | call a => simp [Instr.mnemonic] at hi
  | ret => simp [Instr.mnemonic] at hi
  | jmp a => simp [Instr.mnemonic] at hi
  | hlt => simp [Instr.mnemonic] at hi
  | push a =>
    obtain ⟨r, rfl⟩ := exists_reg_of_wellFormed hw rfl
    exact ⟨_, exec_push s r, rfl⟩
  | pop a =>
    obtain ⟨r, rfl⟩ := exists_reg_of_wellFormed hw rfl
    exact ⟨_, exec_pop s r, rfl⟩
  | prn a =>
    obtain ⟨r, rfl⟩ := exists_reg_of_wellFormed hw rfl
    exact ⟨_, exec_prn s r, rfl⟩
  | jeq a =>
    obtain ⟨r, rfl⟩ := exists_reg_of_wellFormed hw rfl
    exact ⟨_, exec_jeq s r, if_neg (by simp [hjeq rfl])⟩
  | jne a =>
    obtain ⟨r, rfl⟩ := exists_reg_of_wellFormed hw rfl
    exact ⟨_, exec_jne s r, if_pos (hjne rfl)⟩
  | not a =>
    obtain ⟨r, rfl⟩ := exists_reg_of_wellFormed hw rfl
    exact ⟨_, exec_not s r, rfl⟩
  | ldi a imm =>
    obtain ⟨r, rfl⟩ := exists_reg_of_wellFormed hw rfl
    exact ⟨_, exec_ldi s r imm, rfl⟩
  | mod a b =>
    obtain ⟨⟨r, rfl⟩, ⟨q, rfl⟩⟩ := exists_regs_of_wellFormed hw rfl
    refine ⟨_, exec_mod s r q, ?_⟩
    split <;> rfl
  | cmp a b =>
    obtain ⟨⟨r, rfl⟩, ⟨q, rfl⟩⟩ := exists_regs_of_wellFormed hw rfl
    exact ⟨_, exec_cmp s r q, rfl⟩
  | add a b =>
    obtain ⟨⟨r, rfl⟩, ⟨q, rfl⟩⟩ := exists_regs_of_wellFormed hw rfl
    exact ⟨_, exec_add s r q, rfl⟩
  | mul a b =>
    obtain ⟨⟨r, rfl⟩, ⟨q, rfl⟩⟩ := exists_regs_of_wellFormed hw rfl
    exact ⟨_, exec_mul s r q, rfl⟩
  | and a b =>
    obtain ⟨⟨r, rfl⟩, ⟨q, rfl⟩⟩ := exists_regs_of_wellFormed hw rfl
    exact ⟨_, exec_and s r q, rfl⟩
  | or a b =>
    obtain ⟨⟨r, rfl⟩, ⟨q, rfl⟩⟩ := exists_regs_of_wellFormed hw rfl
    exact ⟨_, exec_or s r q, rfl⟩
  | xor a b =>
    obtain ⟨⟨r, rfl⟩, ⟨q, rfl⟩⟩ := exists_regs_of_wellFormed hw rfl
    exact ⟨_, exec_xor s r q, rfl⟩
  | shl a b =>
    obtain ⟨⟨r, rfl⟩, ⟨q, rfl⟩⟩ := exists_regs_of_wellFormed hw rfl
    exact ⟨_, exec_shl s r q, rfl⟩
  | shr a b =>
    obtain ⟨⟨r, rfl⟩, ⟨q, rfl⟩⟩ := exists_regs_of_wellFormed hw rfl
    exact ⟨_, exec_shr s r q, rfl⟩

/-- Settles O44: the byte fetched is the instruction's own in the map, which gives the length. -/
theorem stepAdvancesByFetchedLength : Obligations.StepAdvancesByFetchedLength := by
  intro s i rest he hdec hw hi hjeq hjne
  obtain ⟨_, _, heq, hop, -⟩ := decode_ok_inv hdec
  obtain ⟨rfl, -⟩ := List.cons.inj heq
  obtain ⟨t, hx, hpc⟩ := exec_pc_eq_nextPc s hw hi hjeq hjne
  refine ⟨t, (stepRunsDecodedInstruction s i rest he hdec).trans hx, ?_⟩
  rw [hpc, State.nextPc_toNat, OpcodeMap.byteOf_of_mnemonicOf hop]

/-- Settles O15: the cycle takes the decode-error path. -/
theorem undefinedOpcodeHaltsAndReports : Obligations.UndefinedOpcodeHaltsAndReports := by
  intro s he hop
  rw [step_of_executing he, cycle_of_undefined (OpcodeMap.mnemonicOf_eq_none.mpr hop)]
  rfl

theorem step_of_fault {s : State} {f : ModelFault} (h : s.fault = some f) :
    step s = .fault (.faulted f) := by
  simp [step, State.stopped, h]

theorem step_of_halted {s : State} {r : HaltReason} (hr : s.run = .halted r)
    (hf : s.fault = none) : step s = .fault (.halted r) := by
  simp [step, State.stopped, hr, hf]

/-- Settles O16: only an executing core has a next state. -/
theorem stoppedCoreHasNoStep : Obligations.StoppedCoreHasNoStep := by
  refine ⟨fun s r hr t h => ?_, fun _ _ => step_of_fault, fun _ _ => step_of_halted⟩
  obtain ⟨hrun, -⟩ := executing_of_step h
  cases hr.symm.trans hrun

end Sys2Proof.Machine
end

section
/-! PROOFS. Facts of the opcode map (spec/30_encoding.md R61, R66, R68) and of reset
(spec/10_state.md R38). -/

namespace Sys2Proof

/-- Bit 7 of a byte, or bit 6 of one below 128, in the byte's order. -/
theorem opLen_eq_of_order (ir : Byte) :
    opLen ir = if 128 ≤ ir.toNat then 3 else if 64 ≤ ir.toNat then 2 else 1 := by
  revert ir
  decide

/-- Settles O2: the length by the byte's order, and the twenty bytes of the default map. -/
theorem lengthIsGivenByTopTwoBits : Obligations.LengthIsGivenByTopTwoBits :=
  ⟨opLen_eq_of_order, fun op => by cases op <;> decide⟩

/-- Settles O3: the decoder run on each word. -/
theorem wordsOfTheSpecDecode : Obligations.WordsOfTheSpecDecode :=
  ⟨rfl, rfl, rfl, rfl, rfl, rfl, rfl, rfl, rfl, rfl, rfl, rfl, rfl⟩

/-- Settles O5: the count, over the 256 byte values. -/
theorem undefinedBytesUnderDefaultMap : Obligations.UndefinedBytesUnderDefaultMap := by
  unfold Obligations.UndefinedBytesUnderDefaultMap
  decide +kernel

end Sys2Proof

namespace Sys2Proof.Machine

/-- R7 starts at 0xF4, every other register at 0 (spec/10_state.md R38). -/
theorem State.getReg_resetWith (m : OpcodeMap) (flags0 : Byte) (r : RegIdx) :
    (State.resetWith m flags0).getReg r = if r = 7 then 0xF4 else 0 := by
  fin_cases r <;> rfl

/-- Settles O8: the fields by definition, the registers and the cells by what each reads. -/
theorem resetValues : Obligations.ResetValues :=
  ⟨fun m flags0 => ⟨rfl, rfl, fun r hr => (State.getReg_resetWith m flags0 r).trans (if_neg hr),
    State.getReg_resetWith m flags0 7, State.readByte_resetWith m flags0, rfl, rfl, rfl, rfl, rfl⟩,
    rfl⟩

end Sys2Proof.Machine
end

section
/-! PROOFS. The canonical form of memory (spec/20_memory.md R40) and the load (R44). -/

namespace Sys2Proof.Machine

/-- In a memory of rising addresses a listed cell is what its address reads as. -/
theorem Memory.read_of_mem {m : Memory} (h : m.Pairwise fun c d => c.1 < d.1) {c : Host.Cell}
    (hc : c ∈ m) : m.read c.1 = c.2 := by
  induction m with
  | nil => cases hc
  | cons d m ih =>
    obtain ⟨hd, hm⟩ := List.pairwise_cons.mp h
    obtain rfl | hc := List.mem_cons.mp hc
    · exact if_pos rfl
    · exact (if_neg (hd c hc).ne).trans (ih hm hc)

/-- An address that reads as anything but an unlisted one is listed with that byte. -/
theorem Memory.mem_of_read {m : Memory} {a : Nat} (h : m.read a ≠ Memory.unlisted) :
    (a, m.read a) ∈ m := by
  induction m with
  | nil => exact absurd rfl h
  | cons d m ih =>
    obtain ⟨k, v⟩ := d
    by_cases hk : k = a
    · simp [Memory.read, hk]
    · rw [Memory.read, if_neg hk] at h ⊢
      exact List.mem_cons_of_mem _ (ih h)

/-- A canonical memory lists no cell that another memory, alike at all 256 addresses, does not list. -/
theorem Memory.subset_of_read_eq {m m' : Memory} (hm : m.wf)
    (h : ∀ a : Byte, m.read a.toNat = m'.read a.toNat) : m ⊆ m' := by
  intro c hc
  obtain ⟨hlt, hne⟩ := hm.2 c hc
  have hread := Memory.read_of_mem hm.1 hc
  have hread' : m'.read c.1 = c.2 := by
    have ha := h (mod8 c.1)
    rw [toNat_mod8_of_lt hlt, hread] at ha
    exact ha.symm
  have hmem := Memory.mem_of_read (m := m') (a := c.1) (by rw [hread']; exact hne)
  rwa [hread'] at hmem

theorem Memory.nodup_of_wf {m : Memory} (h : m.wf) : m.Nodup :=
  h.1.imp fun hlt heq => absurd (congrArg Prod.fst heq) hlt.ne

/-- Settles O12: the two list the same cells, in the order of their addresses. -/
theorem canonicalMemoriesWithEqualReadsAreEqual :
    Obligations.CanonicalMemoriesWithEqualReadsAreEqual := by
  intro m m' hm hm' h
  have hperm : m.Perm m' := (List.perm_ext_iff_of_nodup (Memory.nodup_of_wf hm)
    (Memory.nodup_of_wf hm')).mpr fun _ =>
      ⟨fun hc => Memory.subset_of_read_eq hm h hc,
        fun hc => Memory.subset_of_read_eq hm' (fun a => (h a).symm) hc⟩
  exact hperm.eq_of_pairwise (fun _ _ _ _ hlt hgt => absurd hgt hlt.asymm) hm.1 hm'.1

/-- Settles O10: a cell of the loaded memory is the image's byte or, past it, what it was at reset. -/
theorem loadPlacesImageFromAddressZero : Obligations.LoadPlacesImageFromAddressZero := by
  intro m flags0 img hl
  refine ⟨fun k hk => ?_, fun a ha => ?_, _, rfl⟩
  · have hlt : (mod8 k).toNat = k := toNat_mod8_of_lt (hk.trans_le hl)
    rw [State.readByte, hlt, State.load, Memory.read_loadFrom,
      dif_pos ⟨Nat.zero_le k, by rwa [Nat.zero_add]⟩]
    rfl
  · rw [State.readByte, State.load, Memory.read_loadFrom, dif_neg (by omega)]
    rfl

end Sys2Proof.Machine
end

section
/-! PROOFS. The image file (spec/30_encoding.md R72) and the launch
(spec/70_reset_and_hazards.md R182). -/

namespace Sys2Proof.Machine

/-- Only a digit run of more than eight digits makes a line invalid. -/
theorem readLine_eq_invalid (l : List Char) :
    readLine l = .invalid ↔ 8 < (l.takeWhile fun c => c == '0' || c == '1').length := by
  simp only [readLine]
  split
  · next h => simp [h]
  · split
    · next h => simpa using h
    · next h => simpa using h

/-- A file has no image exactly when one of its lines is invalid. -/
theorem parseImage_eq_none (file : List (List Char)) :
    parseImage file = none ↔ ∃ l ∈ file, readLine l = .invalid := by
  induction file with
  | nil => simp [parseImage]
  | cons l ls ih => cases hl : readLine l <;> simp [parseImage, hl, ih]

/-- Settles O11: each case of the launch, and the decode error of the reset state's byte 0. -/
theorem launchOutcomes : Obligations.LaunchOutcomes := by
  refine ⟨fun file => ?_, fun cfg file => ⟨launch_lines_of_none, fun _ => launch_lines_of_too_long,
    fun _ => launch_lines_of_loadable⟩, launch_loadError, fun _ _ => ⟨rfl, rfl, rfl⟩,
    fun flags0 => ?_⟩
  · simp only [parseImage_eq_none, readLine_eq_invalid]
  · have hop : ∀ op, defaultOpcodes.byteOf op ≠ 0 := fun op => by cases op <;> decide
    exact undefinedOpcodeHaltsAndReports _ (State.executing_resetWith defaultOpcodes flags0) hop

/-! ## Binary digits -/

/-- The character a binary digit is written as. -/
def digitChar (d : Bool) : Char := if d then '1' else '0'

theorem digitChar_isDigit (d : Bool) : (digitChar d == '0' || digitChar d == '1') = true := by
  cases d <;> rfl

theorem binaryValue_append_digit (l : List Bool) (d : Bool) :
    binaryValue ((l ++ [d]).map digitChar) = Nat.bit d (binaryValue (l.map digitChar)) := by
  cases d <;> simp [binaryValue, digitChar, Nat.bit]

/-- The digits are the value's bits, the first digit the most significant (spec/30_encoding.md R72). -/
theorem testBit_binaryValue (digits : List Bool) (k : Nat) (h : k < digits.length) :
    (binaryValue (digits.map digitChar)).testBit (digits.length - 1 - k) = digits[k] := by
  induction digits using List.reverseRecOn with
  | nil => cases h
  | append_singleton l d ih =>
    rw [binaryValue_append_digit]
    simp only [List.length_append, List.length_singleton] at h ⊢
    obtain rfl | hk := (Nat.lt_succ_iff_lt_or_eq.mp h).symm
    · simp
    · have hidx : l.length + 1 - 1 - k = (l.length - 1 - k) + 1 := by omega
      rw [hidx, Nat.testBit_bit_succ, ih hk, List.getElem_append_left hk]

theorem binaryValue_lt (digits : List Bool) :
    binaryValue (digits.map digitChar) < 2 ^ digits.length := by
  induction digits using List.reverseRecOn with
  | nil => decide
  | append_singleton l d ih =>
    rw [binaryValue_append_digit, List.length_append, List.length_singleton, Nat.pow_succ]
    cases d <;> simp [Nat.bit] <;> omega

/-- The digit run of a line ends where the first other character stands. -/
theorem takeWhile_isDigit_eq_nil {l : List Char} (h : ∀ c, l.head? = some c → c ≠ '0' ∧ c ≠ '1') :
    (l.takeWhile fun c => c == '0' || c == '1') = [] := by
  cases l with
  | nil => rfl
  | cons c l => simp [h c rfl]

theorem takeWhile_isDigit_append {digits : List Bool} {tail : List Char}
    (h : ∀ c, tail.head? = some c → c ≠ '0' ∧ c ≠ '1') :
    ((digits.map digitChar ++ tail).takeWhile fun c => c == '0' || c == '1') =
      digits.map digitChar := by
  have hall : ∀ c ∈ digits.map digitChar, (c == '0' || c == '1') = true := by
    intro c hc
    obtain ⟨d, -, rfl⟩ := List.mem_map.mp hc
    exact digitChar_isDigit d
  rw [List.takeWhile_append_of_pos hall, takeWhile_isDigit_eq_nil h, List.append_nil]

theorem readLine_digits {digits : List Bool} {tail : List Char} (hne : digits ≠ [])
    (hl : digits.length ≤ 8) (h : ∀ c, tail.head? = some c → c ≠ '0' ∧ c ≠ '1') :
    readLine (digits.map digitChar ++ tail) =
      .byte (mod8 (binaryValue (digits.map digitChar))) := by
  simp only [readLine, takeWhile_isDigit_append h, List.map_eq_nil_iff, if_neg hne, List.length_map,
    if_pos hl]

theorem readLine_skipped {l : List Char} (h : ∀ c, l.head? = some c → c ≠ '0' ∧ c ≠ '1') :
    readLine l = .skipped := by
  simp only [readLine, takeWhile_isDigit_eq_nil h, if_true]

/-- Settles O46: a digit run of at most eight digits fits a byte, bit by bit. -/
theorem imageLinesAreReadInBaseTwo : Obligations.ImageLinesAreReadInBaseTwo := by
  refine ⟨fun digits tail hne hl htail => ?_, fun _ => readLine_skipped, rfl,
    fun line file img himg => ⟨fun hr => ?_, fun v hr => ?_⟩⟩
  · have hlt : binaryValue (digits.map digitChar) < 256 :=
      (binaryValue_lt digits).trans_le (Nat.pow_le_pow_right two_pos hl)
    refine ⟨_, readLine_digits hne hl htail, fun k hk => ?_, ?_⟩
    · rw [BitVec.getLsbD, toNat_mod8_of_lt hlt, testBit_binaryValue digits k hk]
    · rw [toNat_mod8_of_lt hlt]
      exact binaryValue_lt digits
  · simp [parseImage, hr, himg]
  · simp [parseImage, hr, himg]

end Sys2Proof.Machine
end
